-- ==== Sys2Proof/Word.lean ====
section
/-! DEFINITION. The word types of the AOC16 CORE (spec/00_scope.md R5, spec/30_encoding.md R30). -/

namespace Sys2Proof

/-- A register, `pc`, an operand field or an ALU value: 32 bits, two's complement (R5). Its signed
reading is `BitVec.toInt`; its bit pattern is the vector itself (`bits32` of 00_scope.md section 4). -/
abbrev Word := BitVec 32

/-- One instruction word of the program store: 128 bits (R30). -/
abbrev InstrWord := BitVec 128

/-- One byte of a program image carried as bytes (R23). -/
abbrev Byte := BitVec 8

end Sys2Proof
end

