-- ==== Sys2Proof/Machine/Flags.lean ====
section
/-! DEFINITION. The CORE has no flags, condition codes or predicates (spec/10_state.md R17): there is
no flag computation. What other machines put in flags, the comparisons write to a register as the
value 1 or 0 (R17, spec/44_comparison.md R72); that value is computed here. -/

namespace Sys2Proof.Machine

/-- The truth value of a comparison as a register value: 1 if true, 0 if false (R17, R72). -/
def truthWord (b : Bool) : Word := if b then 1 else 0

/-- `va >s vb`: strict greater-than on the signed values (R72). -/
def signedGreater (va vb : Word) : Bool := decide (va.toInt > vb.toInt)

/-- `va = vb` (R72). -/
def wordEqual (va vb : Word) : Bool := decide (va = vb)

end Sys2Proof.Machine
end

