-- ==== Sys2Proof/Config.lean ====
section
/-! DEFINITION. What is fixed for the machine (spec/00_scope.md R4 to R7), and the values the spec
leaves open: `PMAX` and the contents of a program-store entry that nothing has loaded. -/

namespace Sys2Proof

/-- `NREG`, the number of registers (R4): a constant, not a parameter. -/
abbrev Config.nreg : Nat := 6

/-- The largest value of `PMAX` that R6 allows. -/
abbrev Config.pmaxLimit : Nat := 2 ^ 31 - 1

/-- The free number behind `PMAX`: it has no body, so nothing can be proved of its value. -/
opaque Config.pmaxSeed : Nat

/-- `PMAX`, the capacity of the program store in instructions: OPEN, any value with
1 <= PMAX <= 2^31 - 1 (R6, D16; log entry 5). -/
def Config.pmax : Nat := Config.pmaxSeed % Config.pmaxLimit + 1

/-- What a program-store entry that nothing has loaded holds: unspecified (R21, R92, I8), so a free
value that depends on the index; no run reaches it (log entry 4). -/
opaque Config.unspecifiedEntry : Nat → InstrWord

end Sys2Proof
end

