-- ==== Sys2Proof/Machine/State.lean ====
section
/-! DEFINITION. The state of the CORE (spec/10_state.md R10 to R19 and its section 6), the reasons a
step can stop, and the state after reset (spec/70_reset_and_hazards.md R90 to R92). -/

namespace Sys2Proof.Machine

/-- The register file: six 32-bit registers x[0] to x[5] (R4, R10). -/
abbrev Regs := Vector Word Config.nreg

/-- The program store `PROG`: the listed instruction indices with their 128-bit words (R21). The
unit of addressing is the instruction index, so a cell is a word, not a byte (log entry 3). In its
canonical form (`Memory.wf`, Machine/Ops.lean) the indices rise strictly. An unlisted index holds
nothing that was ever loaded (log entry 4). -/
abbrev Memory := List (Nat × InstrWord)

/-- The step-result register `sres` (R50). -/
inductive StepResult where
  /-- 00: the step found the machine halted. -/
  | halt
  /-- 01, CONTINUE: the step executed an instruction. -/
  | cont
  /-- 10: the step raised or found the invalid-program fault. -/
  | fault
  /-- 11: no step since INIT. -/
  | none
  deriving DecidableEq, Repr

/-- Everything the spec gives the CORE (10_state.md section 6). -/
structure State where
  /-- x[0] to x[5] (R10). -/
  regs : Regs
  /-- The program counter: the index of the next instruction, signed (R12). -/
  pc : Word
  /-- The ip-register binding, as LOAD was given it (R13). -/
  ipsel : Word
  /-- `N`, the length of the loaded program (R14). -/
  n : Nat
  /-- `PROG` (R21). -/
  prog : Memory
  /-- The sticky invalid-program bit (R15). -/
  faulted : Bool
  /-- The result of the latest STEP (R50). -/
  sres : StepResult
  deriving DecidableEq, Repr

/-- Faults that stop the model: NONE. The CORE's one fault, InvalidProgram, has its whole effect in
the spec (R80): the sticky bit and `sres` change and the machine answers every later STEP, so it is a
next state here, as is the normal halt (R43). Nothing raises a constructor of this type, and that is
safe: no behaviour is cut off (log entry 7). -/
inductive Fault where
  deriving DecidableEq, Repr

/-- Reasons the model has no answer. -/
inductive Refusal where
  /-- An instruction without a meaning. Raised only by an arm of `exec` that says so, and no arm
  does: all sixteen instructions have their meaning. Safe: the run stops. -/
  | notModelled (mnemonic : String)
  deriving DecidableEq, Repr

/-- What a command or an instruction answers. -/
abbrev Out := Host.Outcome State Fault Refusal

/-- The state after reset: power-on performs INIT (R90, R91, R92). Nothing is listed in `PROG`,
whose contents are then unspecified and unreachable. -/
def State.reset : State where
  regs := Vector.replicate Config.nreg 0
  pc := 0
  ipsel := 0
  n := 0
  prog := []
  faulted := false
  sres := .none

end Sys2Proof.Machine
end

