-- ==== Sys2Proof/Machine/Ops.lean ====
section
/-! DEFINITION. The named operations over the program store, the registers and the status: reads and
writes of the store, fetch, the run status, the one fault, write-back with the IP-sync mux, and the
commands INIT and LOAD (spec/20_memory.md, spec/40_execution_cycle.md, spec/60_exceptions.md,
spec/70_reset_and_hazards.md). -/

namespace Sys2Proof.Machine

/-! ## The program store (R21) -/

/-- The canonical form of the store: listed indices rise strictly. An unlisted index reads as nothing,
so no listed entry equals it, and equal stores are equal lists. -/
abbrev Memory.wf (m : Memory) : Prop := (m.map Prod.fst).Pairwise (· < ·)

/-- The word that was loaded at index `k`, if any was. -/
def Memory.read : Memory → Nat → Option InstrWord
  | [], _ => none
  | (j, w) :: m, k => if j = k then some w else Memory.read m k

/-- The store with `w` at index `k`. -/
def Memory.write : Memory → Nat → InstrWord → Memory
  | [], k, w => [(k, w)]
  | (j, v) :: m, k, w =>
    if k < j then (k, w) :: (j, v) :: m
    else if k = j then (k, w) :: m
    else (j, v) :: Memory.write m k w

/-- The store with the words of a program image at `k`, `k + 1`, ... (R41). -/
def Memory.writeImage (m : Memory) (k : Nat) : List InstrWord → Memory
  | [] => m
  | w :: ws => Memory.writeImage (m.write k w) (k + 1) ws

/-- `FetchInstr(k)`, for 0 <= k < N (R22). It never faults. An index that nothing has loaded holds an
unspecified word (R21, I8): a free value, which no run reaches. -/
def State.fetchInstr (s : State) (k : Nat) : InstrWord :=
  (s.prog.read k).getD (Config.unspecifiedEntry k)

/-! ## Registers (R10) -/

/-- `x[k]`. -/
def State.x (s : State) (k : Fin 6) : Word := s.regs[k]

/-- `x[k] <- v`. -/
def State.setX (s : State) (k : Fin 6) (v : Word) : State :=
  { s with regs := s.regs.set k v }

/-! ## Run status (R16, R43) -/

/-- 0 <= pc < N on the signed pc: the halt check passes (R43). -/
def State.inProgram (s : State) : Bool := decide (0 ≤ s.pc.toInt ∧ s.pc.toInt < s.n)

/-- The derived run status (R16, D12). -/
inductive RunStatus where
  | running | halted | faulted
  deriving DecidableEq, Repr

/-- The run status of a state: derived, not stored (R16). -/
def State.status (s : State) : RunStatus :=
  if s.faulted then .faulted else if s.inProgram then .running else .halted

/-! ## The fault (R80) -/

/-- `raise InvalidProgram`: the one synchronous fault. It sets the sticky bit and `sres` and changes
nothing else: no control transfer, no saved state, no mode (R80, R81, R84). There is no return from
it: only INIT clears the bit (R85, R90). -/
def State.raiseInvalidProgram (s : State) : State :=
  { s with faulted := true, sres := .fault }

/-- A STEP on a faulted machine: FAULT, and nothing else changes (R42). -/
def State.answerFault (s : State) : State := { s with sres := .fault }

/-- A STEP on a halted machine: HALT, and nothing else changes (R43). -/
def State.answerHalt (s : State) : State := { s with sres := .halt }

/-! ## Write-back and the IP-sync mux (R46, R47, R54) -/

/-- The IP-sync mux: the ALU result when C names the ip register, the old x[ipsel] otherwise (R46). -/
def State.ipSync (s : State) (d p : Fin 6) (res : Word) : Word :=
  if d = p then res else s.x p

/-- The next pc: the mux's value plus 1, in 32 bits with wrap-around (R46, R54). -/
def State.nextPc (s : State) (d p : Fin 6) (res : Word) : Word := s.ipSync d p res + 1

/-- The end of an executed step, `d` the index C and `p` the index ipsel: x[C] takes the result,
x[ipsel] and pc take the next pc, and when C = ipsel only the next pc remains there (R42, R46, R47).
The mux reads the state before either write. -/
def State.retire (s : State) (d p : Fin 6) (res : Word) : State :=
  let newpc := s.nextPc d p res
  let written := if d = p then s else s.setX d res
  { written.setX p newpc with pc := newpc, sres := .cont }

/-! ## The commands that do not execute (R41, R90) -/

/-- INIT, the reset: everything to its reset value but the contents of `PROG`, which stay and are
unreachable (R90). -/
def State.init (s : State) : State := { State.reset with prog := s.prog }

/-- LOAD(ip, seq): the binding, the length and the image; registers, pc, the fault bit and `sres`
stay (R41). No check is made. Entries past the image keep what they held and are unreachable (R21,
log entry 6). -/
def State.load (s : State) (ip : Word) (seq : List InstrWord) : State :=
  { s with ipsel := ip, n := seq.length, prog := s.prog.writeImage 0 seq }

/-! ## The host's placement of one word (log entries 2 and 8) -/

/-- `s` with the word `w` where the next STEP fetches, and nothing in the way of that step: the fault
bit is cleared; when pc is inside the program the word goes to PROG[pc]; when it is not, pc becomes 0,
the word goes to PROG[0] and the program has at least one instruction. This stands for a LOAD. -/
def State.placeWord (s : State) (w : InstrWord) : State :=
  if s.inProgram then
    { s with prog := s.prog.write s.pc.toNat w, faulted := false }
  else
    { s with pc := 0, n := max 1 s.n, prog := s.prog.write 0 w, faulted := false }

end Sys2Proof.Machine
end

