-- ==== Sys2Proof/Syntax.lean ====
section
/-! DEFINITION. The sixteen instructions (spec/30_encoding.md R34), one constructor per row of the
opcode table, and the three control signals of the decode table (R35). -/

namespace Sys2Proof

/-- An instruction: the document's tuple of opcode and operands A, B and C (R30, R33). Each operand
is its 32-bit field; whether it is a register index or a value depends on the opcode (R8, R35). An
operand used as a register index may be out of range: that is a fault at execution, not an encoding
error (R36). The unused B of `setr` and `seti` is kept, since the word holds it. -/
inductive Instr where
  /-- op 0, R60: `x[C] <- x[A] + x[B]`. -/
  | addr (a b c : Word)
  /-- op 1, R61: `x[C] <- x[A] + B`. -/
  | addi (a b c : Word)
  /-- op 2, R62: `x[C] <- x[A] * x[B]`. -/
  | mulr (a b c : Word)
  /-- op 3, R63: `x[C] <- x[A] * B`. -/
  | muli (a b c : Word)
  /-- op 4, R65: `x[C] <- x[A] AND x[B]`. -/
  | banr (a b c : Word)
  /-- op 5, R66: `x[C] <- x[A] AND B`. -/
  | bani (a b c : Word)
  /-- op 6, R67: `x[C] <- x[A] OR x[B]`. -/
  | borr (a b c : Word)
  /-- op 7, R68: `x[C] <- x[A] OR B`. -/
  | bori (a b c : Word)
  /-- op 8, R70: `x[C] <- x[A]`, B unused. -/
  | setr (a b c : Word)
  /-- op 9, R71: `x[C] <- A`, B unused. -/
  | seti (a b c : Word)
  /-- op 10, R73: `x[C] <- A >s x[B]`. -/
  | gtir (a b c : Word)
  /-- op 11, R74: `x[C] <- x[A] >s B`. -/
  | gtri (a b c : Word)
  /-- op 12, R75: `x[C] <- x[A] >s x[B]`. -/
  | gtrr (a b c : Word)
  /-- op 13, R76: `x[C] <- A = x[B]`. -/
  | eqir (a b c : Word)
  /-- op 14, R77: `x[C] <- x[A] = B`. -/
  | eqri (a b c : Word)
  /-- op 15, R78: `x[C] <- x[A] = x[B]`. -/
  | eqrr (a b c : Word)
  deriving DecidableEq, Repr

/-- The ALU functions: the `alu` signal of R35. -/
inductive AluFn where
  | ADD | MUL | AND | OR | PASS | GT | EQ
  deriving DecidableEq, Repr

/-- The kinds of an operand (R33): register, immediate, unused. -/
inductive Mode where
  | R | I | X
  deriving DecidableEq, Repr

/-- The control signals that the decoder makes of an opcode (R35). `cmode` is always R. -/
structure Control where
  alu : AluFn
  amode : Mode
  bmode : Mode
  deriving DecidableEq, Repr

/-- Operand A of an instruction (R33). -/
def Instr.opA : Instr → Word
  | .addr a _ _ | .addi a _ _ | .mulr a _ _ | .muli a _ _ | .banr a _ _ | .bani a _ _ | .borr a _ _
  | .bori a _ _ | .setr a _ _ | .seti a _ _ | .gtir a _ _ | .gtri a _ _ | .gtrr a _ _ | .eqir a _ _
  | .eqri a _ _ | .eqrr a _ _ => a

/-- Operand B of an instruction (R33). -/
def Instr.opB : Instr → Word
  | .addr _ b _ | .addi _ b _ | .mulr _ b _ | .muli _ b _ | .banr _ b _ | .bani _ b _ | .borr _ b _
  | .bori _ b _ | .setr _ b _ | .seti _ b _ | .gtir _ b _ | .gtri _ b _ | .gtrr _ b _ | .eqir _ b _
  | .eqri _ b _ | .eqrr _ b _ => b

/-- Operand C of an instruction: always the destination register (R8, R33). -/
def Instr.opC : Instr → Word
  | .addr _ _ c | .addi _ _ c | .mulr _ _ c | .muli _ _ c | .banr _ _ c | .bani _ _ c | .borr _ _ c
  | .bori _ _ c | .setr _ _ c | .seti _ _ c | .gtir _ _ c | .gtri _ _ c | .gtrr _ _ c | .eqir _ _ c
  | .eqri _ _ c | .eqrr _ _ c => c

end Sys2Proof
end

