-- ==== Sys2Proof/Machine/Operands.lean ====
section
/-! DEFINITION. The operand forms (spec/30_encoding.md R33, spec/40_execution_cycle.md R45, R48): a
register operand, an immediate and an unused field, with the register-index check. -/

namespace Sys2Proof.Machine

/-- The register that an index value names, if it is in range: the check 0 <= k < 6 on the signed
value (R45). The index of a register is only ever had through this check. -/
def regIndex (k : Word) : Option (Fin 6) :=
  if h : 0 ≤ k.toInt ∧ k.toInt < 6 then some ⟨k.toInt.toNat, by omega⟩ else none

/-- A source operand of an instruction (R33). -/
inductive Operand where
  /-- The field is a register index; the data is x[index]. -/
  | reg (index : Word)
  /-- The field is the data. -/
  | imm (value : Word)
  /-- The field is not read, not checked and has no effect. -/
  | unused
  deriving DecidableEq, Repr

/-- The data of a source operand, and none where a register index fails its check (R45, R48). The
data of an unused operand is a don't-care that its ALU function ignores: R42 writes 0 for it. -/
def Operand.fetch (s : State) : Operand → Option Word
  | .reg k => (regIndex k).map s.x
  | .imm v => some v
  | .unused => some 0

/-- The operand that a field is under a mode of the decode table (R35). -/
def Operand.ofMode (m : Mode) (field : Word) : Operand :=
  match m with
  | .R => .reg field
  | .I => .imm field
  | .X => .unused

end Sys2Proof.Machine
end

