-- ==== Sys2Proof/Machine/Alu.lean ====
section
/-! DEFINITION. The ALU (spec/41_arithmetic.md R56, R57; spec/42_bitwise.md R64; spec/43_assignment.md
R69; spec/44_comparison.md R72) and the part every instruction shares: index check, operand fetch,
ALU, write-back and IP sync (spec/40_execution_cycle.md R42, R45 to R48, R52). -/

namespace Sys2Proof.Machine

/-- The ALU. ADD and MUL keep the low 32 bits of the exact result, with no overflow detected (R56,
R57); AND and OR act on the bit patterns (R64); PASS is `va` (R69); GT and EQ give 1 or 0 (R72). -/
def alu (f : AluFn) (va vb : Word) : Word :=
  match f with
  | .ADD => va + vb
  | .MUL => va * vb
  | .AND => va &&& vb
  | .OR => va ||| vb
  | .PASS => va
  | .GT => truthWord (signedGreater va vb)
  | .EQ => truthWord (wordEqual va vb)

/-- The execution of one decoded instruction with ALU function `f`, source operands `a` and `b` and
destination field `c` (R42 from R45 on). Every index that will be used, ipsel's among them, is
checked before anything is read or written, and one failed check raises the fault with no other
effect; otherwise the sources are read from the state before the step and the result retires. -/
def execute (f : AluFn) (a b : Operand) (c : Word) (s : State) : Out :=
  match a.fetch s, b.fetch s, regIndex c, regIndex s.ipsel with
  | some va, some vb, some d, some p => .next (s.retire d p (alu f va vb))
  | _, _, _, _ => .next s.raiseInvalidProgram

end Sys2Proof.Machine
end

