-- ==== Sys2Proof/Machine/Arithmetic.lean ====
section
/-! DEFINITION. The arithmetic instructions (spec/41_arithmetic.md R60 to R63). -/

namespace Sys2Proof.Machine

/-- `addr A B C` (R60): `x[C] <- wrap32(x[A] + x[B])`, then the sync rule. -/
def execAddr (a b c : Word) (s : State) : Out := execute .ADD (.reg a) (.reg b) c s

/-- `addi A B C` (R61): `x[C] <- wrap32(x[A] + B)`, then the sync rule. -/
def execAddi (a b c : Word) (s : State) : Out := execute .ADD (.reg a) (.imm b) c s

/-- `mulr A B C` (R62): `x[C] <- wrap32(x[A] * x[B])`, then the sync rule. -/
def execMulr (a b c : Word) (s : State) : Out := execute .MUL (.reg a) (.reg b) c s

/-- `muli A B C` (R63): `x[C] <- wrap32(x[A] * B)`, then the sync rule. -/
def execMuli (a b c : Word) (s : State) : Out := execute .MUL (.reg a) (.imm b) c s

end Sys2Proof.Machine
end

