-- ==== Sys2Proof/Machine/Assignment.lean ====
section
/-! DEFINITION. The assignment instructions (spec/43_assignment.md R70, R71). Operand B is unused: it
is not read, not checked and has no effect (D8), so a meaning is not given it. -/

namespace Sys2Proof.Machine

/-- `setr A B C` (R70): `x[C] <- x[A]`, then the sync rule. -/
def execSetr (a c : Word) (s : State) : Out := execute .PASS (.reg a) .unused c s

/-- `seti A B C` (R71): `x[C] <- A`, then the sync rule. -/
def execSeti (a c : Word) (s : State) : Out := execute .PASS (.imm a) .unused c s

end Sys2Proof.Machine
end

