-- ==== Sys2Proof/Machine/Bitwise.lean ====
section
/-! DEFINITION. The bitwise instructions (spec/42_bitwise.md R65 to R68). -/

namespace Sys2Proof.Machine

/-- `banr A B C` (R65): `x[C] <- x[A] AND x[B]`, then the sync rule. -/
def execBanr (a b c : Word) (s : State) : Out := execute .AND (.reg a) (.reg b) c s

/-- `bani A B C` (R66): `x[C] <- x[A] AND B`, then the sync rule. -/
def execBani (a b c : Word) (s : State) : Out := execute .AND (.reg a) (.imm b) c s

/-- `borr A B C` (R67): `x[C] <- x[A] OR x[B]`, then the sync rule. -/
def execBorr (a b c : Word) (s : State) : Out := execute .OR (.reg a) (.reg b) c s

/-- `bori A B C` (R68): `x[C] <- x[A] OR B`, then the sync rule. -/
def execBori (a b c : Word) (s : State) : Out := execute .OR (.reg a) (.imm b) c s

end Sys2Proof.Machine
end

