-- ==== Sys2Proof/Machine/Comparison.lean ====
section
/-! DEFINITION. The comparison instructions (spec/44_comparison.md R73 to R78). -/

namespace Sys2Proof.Machine

/-- `gtir A B C` (R73): `x[C] <- (A >s x[B]) ? 1 : 0`, then the sync rule. -/
def execGtir (a b c : Word) (s : State) : Out := execute .GT (.imm a) (.reg b) c s

/-- `gtri A B C` (R74): `x[C] <- (x[A] >s B) ? 1 : 0`, then the sync rule. -/
def execGtri (a b c : Word) (s : State) : Out := execute .GT (.reg a) (.imm b) c s

/-- `gtrr A B C` (R75): `x[C] <- (x[A] >s x[B]) ? 1 : 0`, then the sync rule. -/
def execGtrr (a b c : Word) (s : State) : Out := execute .GT (.reg a) (.reg b) c s

/-- `eqir A B C` (R76): `x[C] <- (A = x[B]) ? 1 : 0`, then the sync rule. -/
def execEqir (a b c : Word) (s : State) : Out := execute .EQ (.imm a) (.reg b) c s

/-- `eqri A B C` (R77): `x[C] <- (x[A] = B) ? 1 : 0`, then the sync rule. -/
def execEqri (a b c : Word) (s : State) : Out := execute .EQ (.reg a) (.imm b) c s

/-- `eqrr A B C` (R78): `x[C] <- (x[A] = x[B]) ? 1 : 0`, then the sync rule. -/
def execEqrr (a b c : Word) (s : State) : Out := execute .EQ (.reg a) (.reg b) c s

end Sys2Proof.Machine
end

