-- ==== Sys2Proof/WellFormed.lean ====
section
/-! DEFINITION. Well-formed instructions and programs: every operand that the opcode uses as a
register index names one of the six registers (spec/30_encoding.md R33; D8). Every instruction, well
formed or not, has an encoding and a meaning: an ill-formed one faults when it executes (R45). -/

namespace Sys2Proof

/-- `IndexOK(k)` of spec/40_execution_cycle.md R42: 0 <= k < 6, on the signed value. -/
abbrev IndexOK (k : Word) : Prop := 0 ≤ k.toInt ∧ k.toInt < 6

/-- The register operands of an instruction, by the suffix rule R8 and the table of R35. -/
def Instr.regOperands : Instr → List Word
  | .addr a b c | .mulr a b c | .banr a b c | .borr a b c | .gtrr a b c | .eqrr a b c => [a, b, c]
  | .addi a _ c | .muli a _ c | .bani a _ c | .bori a _ c | .gtri a _ c | .eqri a _ c => [a, c]
  | .setr a _ c => [a, c]
  | .seti _ _ c => [c]
  | .gtir _ b c | .eqir _ b c => [b, c]

/-- The check that every register operand of an instruction names a register (D8). -/
def Instr.wellFormed (i : Instr) : Bool := i.regOperands.all fun k => decide (IndexOK k)

/-- An instruction whose register operands all name registers. -/
abbrev Instr.WellFormed (i : Instr) : Prop := i.wellFormed = true

/-- The check of a program and its directive as the document means them: a legal ip register (R13),
at least one instruction (R37), every instruction well formed. -/
def programWellFormed (ip : Word) (prog : List Instr) : Bool :=
  decide (IndexOK ip) && !prog.isEmpty && prog.all Instr.wellFormed

/-- A program that passes the check. -/
abbrev ProgramWellFormed (ip : Word) (prog : List Instr) : Prop := programWellFormed ip prog = true

end Sys2Proof
end

