-- ==== Sys2Proof/Decode.lean ====
section
/-! DEFINITION. The decoder and, after it, the encoder (spec/30_encoding.md R30 to R36), the byte
order of a program image (spec/20_memory.md R23), and the decode table's control signals (R35).
Decoding one instruction word is total: no encoding is illegal (R36). The only refusal is of bytes
that are too few to hold a word. -/

namespace Sys2Proof

/-! ## The fields of a word (R30) -/

/-- `op`, bits 3:0 (R30, R31). -/
def opField (w : InstrWord) : BitVec 4 := w.extractLsb' 0 4
/-- `res`, bits 31:4: reserved, ignored by the decoder (R30, R32). -/
def resField (w : InstrWord) : BitVec 28 := w.extractLsb' 4 28
/-- Operand A, bits 63:32 (R30, R33). -/
def fieldA (w : InstrWord) : Word := w.extractLsb' 32 32
/-- Operand B, bits 95:64 (R30, R33). -/
def fieldB (w : InstrWord) : Word := w.extractLsb' 64 32
/-- Operand C, bits 127:96 (R30, R33). -/
def fieldC (w : InstrWord) : Word := w.extractLsb' 96 32

/-! ## Decoding -/

/-- The instruction that opcode number `op` and the three operand fields make: the opcode map of
R34. Every one of the sixteen numbers has its own line, and there is no seventeenth. -/
def instrOfFields (op : Fin 16) (a b c : Word) : Instr :=
  match op with
  | 0 => .addr a b c
  | 1 => .addi a b c
  | 2 => .mulr a b c
  | 3 => .muli a b c
  | 4 => .banr a b c
  | 5 => .bani a b c
  | 6 => .borr a b c
  | 7 => .bori a b c
  | 8 => .setr a b c
  | 9 => .seti a b c
  | 10 => .gtir a b c
  | 11 => .gtri a b c
  | 12 => .gtrr a b c
  | 13 => .eqir a b c
  | 14 => .eqri a b c
  | 15 => .eqrr a b c
  | ⟨n + 16, h⟩ => absurd h (by omega)

/-- The decoder: every 128-bit word is exactly one instruction (R31 to R36). -/
def decode (w : InstrWord) : Instr :=
  instrOfFields (opField w).toFin (fieldA w) (fieldB w) (fieldC w)

/-- Why bytes are not an instruction. -/
inductive DecodeError where
  /-- Fewer than the sixteen bytes of one word are left (R30: one length). -/
  | truncatedWord
  deriving DecidableEq, Repr

/-- A 32-bit slot from four bytes, little-endian (R23). -/
def slotOfBytes (b0 b1 b2 b3 : Byte) : Word := b3 ++ b2 ++ b1 ++ b0

/-- A word from its four slots, slot 0 the lowest bits (R30). -/
def wordOfSlots (s0 s1 s2 s3 : Word) : InstrWord := s3 ++ s2 ++ s1 ++ s0

/-- The first word of a byte image and the bytes after it: slot 0 first, each slot little-endian
(R23). -/
def wordOfBytes : List Byte → Except DecodeError (InstrWord × List Byte)
  | b0 :: b1 :: b2 :: b3 :: b4 :: b5 :: b6 :: b7 :: b8 :: b9 :: b10 :: b11 :: b12 :: b13 :: b14 ::
      b15 :: rest =>
    .ok (wordOfSlots (slotOfBytes b0 b1 b2 b3) (slotOfBytes b4 b5 b6 b7)
      (slotOfBytes b8 b9 b10 b11) (slotOfBytes b12 b13 b14 b15), rest)
  | _ => .error .truncatedWord

/-- Decoding from bytes: the first instruction of an image and the rest of the image. -/
def decodeBytes (bs : List Byte) : Except DecodeError (Instr × List Byte) :=
  match wordOfBytes bs with
  | .ok (w, rest) => .ok (decode w, rest)
  | .error e => .error e

/-! ## Encoding -/

/-- The opcode number of an instruction (R34). -/
def Instr.opcode : Instr → BitVec 4
  | .addr _ _ _ => 0
  | .addi _ _ _ => 1
  | .mulr _ _ _ => 2
  | .muli _ _ _ => 3
  | .banr _ _ _ => 4
  | .bani _ _ _ => 5
  | .borr _ _ _ => 6
  | .bori _ _ _ => 7
  | .setr _ _ _ => 8
  | .seti _ _ _ => 9
  | .gtir _ _ _ => 10
  | .gtri _ _ _ => 11
  | .gtrr _ _ _ => 12
  | .eqir _ _ _ => 13
  | .eqri _ _ _ => 14
  | .eqrr _ _ _ => 15

/-- Slot 0 of a word: the opcode number in bits 3:0, the reserved bits above it written as zero
(R30, R32). -/
def slot0 (op : BitVec 4) : Word := (0 : BitVec 28) ++ op

/-- The word of an instruction: slots 0 to 3 hold `op`, A, B and C (R30). -/
def encode (i : Instr) : InstrWord := wordOfSlots (slot0 i.opcode) i.opA i.opB i.opC

/-- Slot `k` of a word, for k in 0..3 (R30). -/
def wordSlot (w : InstrWord) (k : Nat) : Word := w.extractLsb' (32 * k) 32

/-- The bytes of a slot, lowest first (R23). -/
def slotBytes (s : Word) : List Byte :=
  [s.extractLsb' 0 8, s.extractLsb' 8 8, s.extractLsb' 16 8, s.extractLsb' 24 8]

/-- The bytes of a word in a program image (R23). -/
def wordBytes (w : InstrWord) : List Byte :=
  slotBytes (wordSlot w 0) ++ slotBytes (wordSlot w 1) ++ slotBytes (wordSlot w 2) ++
    slotBytes (wordSlot w 3)

/-! ## The decode table (R35) -/

/-- `DecodeTable`: the control signals by opcode number, the rows of R35 in their order. -/
def decodeTable : Vector Control 16 := #v[
  ⟨.ADD, .R, .R⟩, ⟨.ADD, .R, .I⟩, ⟨.MUL, .R, .R⟩, ⟨.MUL, .R, .I⟩,
  ⟨.AND, .R, .R⟩, ⟨.AND, .R, .I⟩, ⟨.OR, .R, .R⟩, ⟨.OR, .R, .I⟩,
  ⟨.PASS, .R, .X⟩, ⟨.PASS, .I, .X⟩, ⟨.GT, .I, .R⟩, ⟨.GT, .R, .I⟩,
  ⟨.GT, .R, .R⟩, ⟨.EQ, .I, .R⟩, ⟨.EQ, .R, .I⟩, ⟨.EQ, .R, .R⟩]

/-- The control signals of an instruction (R35). -/
def Instr.control (i : Instr) : Control := decodeTable[i.opcode.toFin]

/-! ## The host's entry to the decoder -/

/-- The instruction the decoder reads from a word whose low `nbits` bits are those of `w` and whose
other bits are zero. The one word of an instruction is numbered as R30 numbers it. It goes through
the byte image, so that the byte order of R23 is the one a loader uses. -/
def decodeTableWord (nbits w : Nat) : Option Instr :=
  match decodeBytes (wordBytes (BitVec.ofNat 128 (w % 2 ^ nbits))) with
  | .ok (i, _) => some i
  | .error _ => none

end Sys2Proof
end

