-- ==== Sys2Proof/Machine/Sequencer.lean ====
section
/-! DEFINITION. The control sequencer in front of execution (spec/40_execution_cycle.md R42 to R44):
the sticky fault, the halt check, fetch and decode; and the outputs (R40, R49, R50). -/

namespace Sys2Proof.Machine

/-- What the sequencer makes of a STEP before execution: either the step is over in the state given,
or an instruction goes on to execution. -/
inductive Issue where
  | done (s : State)
  | execute (i : Instr)
  deriving DecidableEq, Repr

/-- The first part of STEP, in the order of R83: a faulted machine answers FAULT, a pc outside the
program answers HALT, and otherwise PROG[pc] (not PROG[x[ipsel]], R44) is fetched and decoded. -/
def State.issue (s : State) : Issue :=
  match s.status with
  | .faulted => .done s.answerFault
  | .halted => .done s.answerHalt
  | .running => .execute (decode (s.fetchInstr s.pc.toNat))

/-- The code of `sres` (R40, R50). -/
def StepResult.code : StepResult → BitVec 2
  | .halt => 0b00
  | .cont => 0b01
  | .fault => 0b10
  | .none => 0b11

/-- The output ports (R40). -/
structure Outputs where
  sres : BitVec 2
  pcOut : Word
  regsOut : Regs
  faultedOut : Bool
  haltedOut : Bool
  deriving DecidableEq, Repr

/-- The outputs show the current state; reading them changes nothing (R40, R49). -/
def State.outputs (s : State) : Outputs where
  sres := s.sres.code
  pcOut := s.pc
  regsOut := s.regs
  faultedOut := s.faulted
  haltedOut := decide (s.status = .halted)

end Sys2Proof.Machine
end

