-- ==== Sys2Proof/Machine/Step.lean ====
section
/-! DEFINITION. One STEP (spec/40_execution_cycle.md R42), and the host's placement of a word. -/

namespace Sys2Proof.Machine

/-- STEP: at most one instruction, completely (R42). -/
def step (s : State) : Host.Outcome State Fault Refusal :=
  match s.issue with
  | .done t => .next t
  | .execute i => exec i s

/-- `s` with the table word `w` of `nbits` bits (the bits above are zero) where the next step fetches
(log entry 2). -/
def State.withFetchWord (s : State) (nbits w : Nat) : State :=
  s.placeWord (BitVec.ofNat 128 (w % 2 ^ nbits))

end Sys2Proof.Machine
end

