-- ==== Sys2Proof/Machine/Command.lean ====
section
/-! DEFINITION. The command interface (spec/40_execution_cycle.md R40, R41, R51): the four commands,
the input ports, and one clock edge. -/

namespace Sys2Proof.Machine

/-- The commands of the document's operations (R40). -/
inductive Command where
  /-- 00: the state is held. -/
  | nop
  /-- 01: `step()`. -/
  | step
  /-- 10: `load(ip_register_index, instruction_sequence)`. -/
  | load (ip : Word) (seq : List InstrWord)
  /-- 11: `initialize()`. -/
  | init
  deriving DecidableEq, Repr

/-- A command that can be given: a LOAD's image fits the program store, for a longer one cannot be
presented (R41; log entry 11). -/
def Command.Presentable : Command → Prop
  | .load _ seq => seq.length ≤ Config.pmax
  | _ => True

/-- What a command does, completely, before the next one is taken (R41, R42, R51, R88, R90). -/
def command (c : Command) (s : State) : Out :=
  match c with
  | .nop => .next s
  | .step => step s
  | .load ip seq => .next (s.load ip seq)
  | .init => .next s.init

/-- A sequence of commands, one after the other (R51). -/
def runCommands : List Command → State → Out
  | [], s => .next s
  | c :: cs, s =>
    match command c s with
    | .next t => runCommands cs t
    | .fault r => .fault r
    | .refused r => .refused r

/-- The input ports at one rising edge (R40). `load_len` is the length of `loadProg`: LOAD sets N to
len(seq) (R41), so it is held once. -/
structure Inputs where
  cmd : BitVec 2
  loadIp : Word
  loadProg : List InstrWord
  deriving DecidableEq, Repr

/-- `load_len` (R40). -/
def Inputs.loadLen (i : Inputs) : Nat := i.loadProg.length

/-- The command on the input ports (R40). -/
def Inputs.command (i : Inputs) : Command :=
  match i.cmd.toFin with
  | 0 => .nop
  | 1 => .step
  | 2 => .load i.loadIp i.loadProg
  | 3 => .init

/-- One rising edge of `clk`: the command sampled there is done (R40, R97). -/
def clockEdge (i : Inputs) (s : State) : Out := command i.command s

end Sys2Proof.Machine
end

