-- ==== Sys2Proof/Machine/Assembler.lean ====
section
/-! DEFINITION. The assembly notation of programs (spec/30_encoding.md R37 to R39): from program text
to the arguments of LOAD. It is a loader's work, outside the machine (R3); no step uses it. -/

namespace Sys2Proof.Machine

/-- Why a text is not a program. -/
inductive AsmError where
  /-- The first line is not `#ip <digits>`. -/
  | badDirective
  /-- An instruction line does not have the form of R37. -/
  | badInstruction
  /-- The four characters in the opcode position are none of the sixteen mnemonics (R37; V5). -/
  | unknownMnemonic
  /-- A number is greater than 2^31 - 1 (R39). -/
  | numberTooLarge
  /-- There is no instruction line (R37). -/
  | noInstruction
  deriving DecidableEq, Repr

/-- The sixteen mnemonics in the order of their opcode numbers (R34). -/
def mnemonics : List (List Char) :=
  [['a','d','d','r'], ['a','d','d','i'], ['m','u','l','r'], ['m','u','l','i'],
   ['b','a','n','r'], ['b','a','n','i'], ['b','o','r','r'], ['b','o','r','i'],
   ['s','e','t','r'], ['s','e','t','i'], ['g','t','i','r'], ['g','t','r','i'],
   ['g','t','r','r'], ['e','q','i','r'], ['e','q','r','i'], ['e','q','r','r']]

/-- The place of a mnemonic in a list, counted from `k`: exact and case-sensitive (R37). -/
def mnemonicIndex (name : List Char) : List (List Char) → Nat → Option Nat
  | [], _ => none
  | m :: ms, k => if m = name then some k else mnemonicIndex name ms (k + 1)

/-- The value of an ASCII decimal digit. -/
def digitValue (c : Char) : Option Nat :=
  if '0' ≤ c ∧ c ≤ '9' then some (c.toNat - '0'.toNat) else none

/-- The number that digits spell after the value `acc`: none if a character is no digit. -/
def digitsFrom (acc : Nat) : List Char → Option Nat
  | [] => some acc
  | c :: cs =>
    match digitValue c with
    | some d => digitsFrom (acc * 10 + d) cs
    | none => none

/-- `digits`: one or more ASCII decimal digits (R37). -/
def number : List Char → Option Nat
  | [] => none
  | c :: cs => digitsFrom 0 (c :: cs)

/-- A text cut at each occurrence of `sep`: always one piece more than there are separators. -/
def splitAt (sep : Char) : List Char → List (List Char)
  | [] => [[]]
  | c :: cs =>
    if c = sep then [] :: splitAt sep cs
    else
      match splitAt sep cs with
      | [] => [[c]]
      | piece :: rest => (c :: piece) :: rest

/-- The 32-bit field of a number: a number greater than 2^31 - 1 does not fit and is rejected, not
wrapped (R39, D21). -/
def operandField (v : Nat) : Except AsmError Word :=
  if v < 2 ^ 31 then .ok (BitVec.ofNat 32 v) else .error .numberTooLarge

/-- The word of an instruction line whose opcode number and three numbers are given: `op` from R34
and A, B and C in order (R37). -/
def assembleNumbers (op : Fin 16) (a b c : Nat) : Except AsmError InstrWord := do
  let fa ← operandField a
  let fb ← operandField b
  let fc ← operandField c
  return encode (instrOfFields op fa fb fc)

/-- One instruction line: a mnemonic and three numbers, separated by exactly one space each (R37). -/
def assembleLine (line : List Char) : Except AsmError InstrWord :=
  match splitAt ' ' line with
  | [m, ta, tb, tc] =>
    match mnemonicIndex m mnemonics 0 with
    | none => .error .unknownMnemonic
    | some k =>
      match number ta, number tb, number tc with
      | some a, some b, some c => assembleNumbers (Fin.ofNat 16 k) a b c
      | _, _, _ => .error .badInstruction
  | _ => .error .badInstruction

/-- The instruction lines in order. -/
def assembleLines : List (List Char) → Except AsmError (List InstrWord)
  | [] => .ok []
  | l :: ls => do
    let w ← assembleLine l
    let ws ← assembleLines ls
    return w :: ws

/-- The directive line `#ip <digits>`: the binding value given to LOAD (R37). A number that does not
fit 32 bits as a signed value is rejected as an operand is (log entry 10). -/
def assembleDirective (line : List Char) : Except AsmError Word :=
  match splitAt ' ' line with
  | [['#', 'i', 'p'], t] =>
    match number t with
    | some v => operandField v
    | none => .error .badDirective
  | _ => .error .badDirective

/-- The lines of a text, less the empty piece after one final newline (R37, C4). -/
def programLines (text : List Char) : List (List Char) :=
  let ls := splitAt '\n' text
  if ls.getLast? = some [] then ls.dropLast else ls

/-- A program text as the LOAD command it stands for (R37): the directive gives `load_ip`, the
instruction lines give the image, and there is at least one. The text is its characters, after UTF-8
(log entry 15). -/
def assemble (text : List Char) : Except AsmError Command :=
  match programLines text with
  | [] => .error .badDirective
  | d :: ls => do
    let ip ← assembleDirective d
    if ls = [] then .error .noInstruction
    else
      let ws ← assembleLines ls
      return .load ip ws

end Sys2Proof.Machine
end

