-- ==== Sys2Proof/Machine/Reference.lean ====
section
/-! DEFINITION. STEP once more, transcribed from the pseudocode of spec/40_execution_cycle.md R42 in
the notation of spec/00_scope.md section 4: mathematical integers, `wrap32`, `bits32` and `int32`, one
decode table for all sixteen opcodes. No part of the machine uses it. Statements compare the machine
with it, and take `wrap32` and the range of an index from it. -/

namespace Sys2Proof.Reference

open Sys2Proof.Machine

/-- `wrap32(v) = ((v + 2^31) mod 2^32) - 2^31` on unbounded integers (00_scope.md section 4). -/
def wrap32 (v : Int) : Int := (v + 2 ^ 31) % 2 ^ 32 - 2 ^ 31

/-- `int32(p)`: the signed value of a 32-bit pattern (00_scope.md section 4). -/
def int32 (p : BitVec 32) : Int := p.toInt

/-- `bits32(v)`: the 32-bit pattern of a value (00_scope.md section 4). -/
def bits32 (v : Int) : BitVec 32 := BitVec.ofInt 32 v

/-- `IndexOK(k) = (0 <= k < 6)` (R42). -/
abbrev InRange (k : Int) : Prop := 0 ≤ k ∧ k < 6

/-- `x[k]`, for k in range. -/
def xRead (r : Regs) (k : Int) : Int := int32 (r.toList.getD k.toNat 0)

/-- `x[k] <- v`, for k in range. -/
def xWrite (r : Regs) (k v : Int) : Regs := r.setIfInBounds k.toNat (bits32 v)

/-- `ALU(f, va, vb)` on integers (R56, R57, R64, R69, R72). -/
def aluInt (f : AluFn) (va vb : Int) : Int :=
  match f with
  | .ADD => wrap32 (va + vb)
  | .MUL => wrap32 (va * vb)
  | .AND => int32 (bits32 va &&& bits32 vb)
  | .OR => int32 (bits32 va ||| bits32 vb)
  | .PASS => va
  | .GT => if va > vb then 1 else 0
  | .EQ => if va = vb then 1 else 0

/-- The register-index check of R45 on an instruction word's operands and ipsel: it holds when one of
the values that will be used as an index is out of range. -/
abbrev IndexFails (ctl : Control) (a b c ip : Int) : Prop :=
  ¬ InRange ip ∨ ¬ InRange c ∨ (ctl.amode = .R ∧ ¬ InRange a) ∨ (ctl.bmode = .R ∧ ¬ InRange b)

/-- The part of STEP after the checks (R46 to R48, R54): operand fetch, ALU, write-back, IP sync. -/
def finish (s : State) (ctl : Control) (a b c ip : Int) : State :=
  let va := if ctl.amode = .R then xRead s.regs a else a
  let vb := if ctl.bmode = .R then xRead s.regs b else if ctl.bmode = .I then b else 0
  let res := aluInt ctl.alu va vb
  let sel := if c = ip then res else xRead s.regs ip
  let newpc := wrap32 (sel + 1)
  let written := if c ≠ ip then xWrite s.regs c res else s.regs
  { s with regs := xWrite written ip newpc, pc := bits32 newpc, sres := .cont }

/-- The execution of a word whose fields are given (R42 from the decode table on). -/
def executeFields (s : State) (op : BitVec 4) (a b c : Int) : State :=
  let ctl := decodeTable[op.toFin]
  if IndexFails ctl a b c (int32 s.ipsel) then { s with faulted := true, sres := .fault }
  else finish s ctl a b c (int32 s.ipsel)

/-- STEP (R42). -/
def stepOf (s : State) : State :=
  if s.faulted then { s with sres := .fault }
  else if ¬ (0 ≤ int32 s.pc ∧ int32 s.pc < s.n) then { s with sres := .halt }
  else
    let w := s.fetchInstr (int32 s.pc).toNat
    executeFields s (w.extractLsb' 0 4) (int32 (w.extractLsb' 32 32)) (int32 (w.extractLsb' 64 32))
      (int32 (w.extractLsb' 96 32))

end Sys2Proof.Reference
end

