-- ==== Sys2Proof/Safety.lean ====
section
/-! DEFINITION. What counts as a good state and a safe run of the CORE: the states that commands
reach, the invariants of those states, and the runs without a fault. -/

namespace Sys2Proof.Machine

/-- The program store and the length agree (R14, R21): the store is canonical, no index beyond PMAX
is listed, N is at most PMAX, and every index below N holds a word that LOAD gave. -/
structure State.StoreInv (s : State) : Prop where
  canonical : s.prog.wf
  within : ∀ k w, s.prog.read k = some w → k < Config.pmax
  lengthFits : s.n ≤ Config.pmax
  loaded : ∀ k, k < s.n → ∃ w, s.prog.read k = some w

/-- The fault bit and the step result agree: `sres` shows FAULT exactly while the machine is faulted
(R15, R50, R80). -/
def State.FaultShown (s : State) : Prop := s.faulted = true ↔ s.sres = .fault

/-- The ip register holds the pc, when the binding names a register (R19, R55). -/
def State.Synced (s : State) : Prop := ∀ p : Fin 6, s.ipsel.toInt = (p.val : Int) → s.x p = s.pc

/-- The states that commands lead to from power-on (R91, R93). -/
inductive Reachable : State → Prop
  /-- Power-on performs INIT. -/
  | reset : Reachable State.reset
  /-- A command that can be given leads on. -/
  | next {s t : State} (c : Command) : Reachable s → c.Presentable → command c s = .next t →
      Reachable t

/-- `k` STEPs. -/
def steps : Nat → State → Out
  | 0, s => .next s
  | k + 1, s =>
    match step s with
    | .next t => steps k t
    | .fault r => .fault r
    | .refused r => .refused r

/-- The machine cannot fault at any pc: the bit is clear, the binding is legal and every loaded word
decodes to a well-formed instruction (R45, R80). -/
structure State.Safe (s : State) : Prop where
  notFaulted : s.faulted = false
  binding : IndexOK s.ipsel
  program : ∀ k, k < s.n → (decode (s.fetchInstr k)).WellFormed

end Sys2Proof.Machine
end

