-- ==== Sys2Proof/Certificates/Slice0/Obligations.lean ====
section
/-! DEFINITION. The statements for the provers, and the vocabulary they are written in. The vocabulary
speaks of mathematical integers (`toInt`, and `wrap32` of spec/00_scope.md section 4) and of register
numbers in `Fin 6`, not of the functions the meanings are made of. -/

namespace Sys2Proof.Claims

open Sys2Proof.Machine Sys2Proof.Reference

/-- `v` is the data of an operand field under an operand kind (R33, R48): the register it names, the
field itself, or anything at all for an unused field. -/
def Reads (s : State) (m : Mode) (field : Word) (v : Int) : Prop :=
  match m with
  | .R => ∃ k : Fin 6, field.toInt = (k.val : Int) ∧ v = (s.x k).toInt
  | .I => v = field.toInt
  | .X => True

/-- The conditions under which an instruction with operand kinds `am` and `bm` executes: C names
register `d`, ipsel names register `p`, and the sources have the data `va` and `vb` (R45, R48). They
are conditions on the state and the operands alone. -/
structure Executes (s : State) (am bm : Mode) (a b c : Word) (d p : Fin 6) (va vb : Int) : Prop where
  destination : c.toInt = (d.val : Int)
  binding : s.ipsel.toInt = (p.val : Int)
  sourceA : Reads s am a va
  sourceB : Reads s bm b vb

/-- `v` is the data of an operand field as a machine that knows its own index reads it: a register
operand that names the ip register gives pc, any other register operand gives its register, an
immediate is the data, an unused field gives anything at all (R48). -/
def ReadsOwnIndex (s : State) (m : Mode) (field : Word) (v : Int) : Prop :=
  match m with
  | .R => (field.toInt = s.ipsel.toInt ∧ v = s.pc.toInt) ∨
      (field.toInt ≠ s.ipsel.toInt ∧ ∃ k : Fin 6, field.toInt = (k.val : Int) ∧ v = (s.x k).toInt)
  | .I => v = field.toInt
  | .X => True

/-- Some value that will be used as a register index is outside 0..5 (R45). -/
def BadIndex (s : State) (am bm : Mode) (a b c : Word) : Prop :=
  ¬ InRange s.ipsel.toInt ∨ ¬ InRange c.toInt ∨ (am = .R ∧ ¬ InRange a.toInt) ∨
    (bm = .R ∧ ¬ InRange b.toInt)

/-- The same for an instruction, with the operand kinds of the decode table (R35). -/
def BadIndexOf (i : Instr) (s : State) : Prop :=
  BadIndex s i.control.amode i.control.bmode i.opA i.opB i.opC

/-- The value of the IP-sync mux: the result when C names the ip register, the old x[ipsel] otherwise
(R46). -/
def muxValue (s : State) (d p : Fin 6) (res : Int) : Int := if d = p then res else (s.x p).toInt

/-- `t` is `s` after an executed instruction with result `res`, destination `d` and binding `p`: the
sync rule of R46 and its frame. The registers but `d` and `p`, the binding, the length, every word of
the program store and the fault bit are as before. -/
structure Retired (s t : State) (d p : Fin 6) (res : Int) : Prop where
  pc : t.pc.toInt = wrap32 (muxValue s d p res + 1)
  ipRegister : t.x p = t.pc
  destination : d ≠ p → (t.x d).toInt = res
  others : ∀ k, k ≠ d → k ≠ p → t.x k = s.x k
  ipsel : t.ipsel = s.ipsel
  n : t.n = s.n
  prog : t.prog = s.prog
  words : ∀ k, t.fetchInstr k = s.fetchInstr k
  faulted : t.faulted = s.faulted
  sres : t.sres = .cont

/-- `s` after raising InvalidProgram: only the fault bit and `sres` change (R80). -/
def raised (s : State) : State := { s with faulted := true, sres := .fault }

/-- The whole rule of one instruction: its encoding (opcode number `op`, fields A, B and C), its
result and its frame when every index is in range, and the fault, with no other effect, when one is
not. The result reads the state before the step. -/
def InstrRule (op : Nat) (mk : Word → Word → Word → Instr) (am bm : Mode) (res : Int → Int → Int) :
    Prop :=
  (∀ w : InstrWord, w.toNat % 16 = op →
    decode w = mk (w.extractLsb' 32 32) (w.extractLsb' 64 32) (w.extractLsb' 96 32)) ∧
  (∀ a b c : Word, encode (mk a b c) = c ++ b ++ a ++ BitVec.ofNat 32 op) ∧
  (∀ (s : State) (a b c : Word) (d p : Fin 6) (va vb : Int), Executes s am bm a b c d p va vb →
    ∃ t, exec (mk a b c) s = .next t ∧ Retired s t d p (res va vb)) ∧
  (∀ (s : State) (a b c : Word), BadIndex s am bm a b c → exec (mk a b c) s = .next (raised s))

/-- The truth value of a comparison as an integer (R72). -/
def truth (p : Prop) [Decidable p] : Int := if p then 1 else 0

/-- A machine that a STEP makes execute: not faulted, pc inside the program (R16). -/
abbrev Running (s : State) : Prop := s.faulted = false ∧ 0 ≤ s.pc.toInt ∧ s.pc.toInt < (s.n : Int)

/-- A machine that a STEP finds halted (R16, R43). -/
abbrev Halted (s : State) : Prop := s.faulted = false ∧ (s.pc.toInt < 0 ∨ (s.n : Int) ≤ s.pc.toInt)

/-- The instruction at the program counter. -/
def current (s : State) : Instr := decode (s.fetchInstr s.pc.toInt.toNat)

/-- INIT, one LOAD, then `k` STEPs (R93). -/
def session (ip : Word) (seq : List InstrWord) (k : Nat) : List Command :=
  .init :: .load ip seq :: List.replicate k .step

/-- The character of a decimal digit. -/
def digitChar (d : Fin 10) : Char := Char.ofNat (48 + d.val)

/-- The number that decimal digits spell. -/
def digitsValue (ds : List (Fin 10)) : Nat := ds.foldl (fun v d => v * 10 + d.val) 0

/-- The text of a number: its decimal digits. -/
def numeral (ds : List (Fin 10)) : List Char := ds.map digitChar

end Sys2Proof.Claims

open Sys2Proof Sys2Proof.Machine Sys2Proof.Reference Sys2Proof.Claims

/-! ## The sixteen instructions -/

/-- R60. -/
def Obligations.AddrAddsRegisters : Prop :=
  InstrRule 0 .addr .R .R fun va vb => wrap32 (va + vb)

/-- R61. -/
def Obligations.AddiAddsImmediate : Prop :=
  InstrRule 1 .addi .R .I fun va vb => wrap32 (va + vb)

/-- R62. -/
def Obligations.MulrMultipliesRegisters : Prop :=
  InstrRule 2 .mulr .R .R fun va vb => wrap32 (va * vb)

/-- R63. -/
def Obligations.MuliMultipliesByImmediate : Prop :=
  InstrRule 3 .muli .R .I fun va vb => wrap32 (va * vb)

/-- R65. -/
def Obligations.BanrAndsRegisters : Prop :=
  InstrRule 4 .banr .R .R fun va vb => int32 (bits32 va &&& bits32 vb)

/-- R66. -/
def Obligations.BaniAndsImmediate : Prop :=
  InstrRule 5 .bani .R .I fun va vb => int32 (bits32 va &&& bits32 vb)

/-- R67. -/
def Obligations.BorrOrsRegisters : Prop :=
  InstrRule 6 .borr .R .R fun va vb => int32 (bits32 va ||| bits32 vb)

/-- R68. -/
def Obligations.BoriOrsImmediate : Prop :=
  InstrRule 7 .bori .R .I fun va vb => int32 (bits32 va ||| bits32 vb)

/-- R70. -/
def Obligations.SetrCopiesRegister : Prop :=
  InstrRule 8 .setr .R .X fun va _ => va

/-- R71. -/
def Obligations.SetiLoadsImmediate : Prop :=
  InstrRule 9 .seti .I .X fun va _ => va

/-- R73. -/
def Obligations.GtirComparesImmediateWithRegister : Prop :=
  InstrRule 10 .gtir .I .R fun va vb => truth (va > vb)

/-- R74. -/
def Obligations.GtriComparesRegisterWithImmediate : Prop :=
  InstrRule 11 .gtri .R .I fun va vb => truth (va > vb)

/-- R75. -/
def Obligations.GtrrComparesRegisters : Prop :=
  InstrRule 12 .gtrr .R .R fun va vb => truth (va > vb)

/-- R76. -/
def Obligations.EqirTestsImmediateAgainstRegister : Prop :=
  InstrRule 13 .eqir .I .R fun va vb => truth (va = vb)

/-- R77. -/
def Obligations.EqriTestsRegisterAgainstImmediate : Prop :=
  InstrRule 14 .eqri .R .I fun va vb => truth (va = vb)

/-- R78. -/
def Obligations.EqrrTestsRegisters : Prop :=
  InstrRule 15 .eqrr .R .R fun va vb => truth (va = vb)

/-! ## The ALU laws -/

/-- R56, R57: the exact integer sum and product, wrapped; that is, their low 32 bits. -/
def Obligations.AddAndMulWrapExactResult : Prop :=
  ∀ va vb : Word,
    (alu .ADD va vb).toInt = wrap32 (va.toInt + vb.toInt) ∧
    (alu .ADD va vb) = BitVec.ofInt 32 (va.toInt + vb.toInt) ∧
    (alu .MUL va vb).toInt = wrap32 (va.toInt * vb.toInt) ∧
    (alu .MUL va vb) = BitVec.ofInt 32 (va.toInt * vb.toInt)

/-- R64: AND and OR bit by bit, bit 31 being the sign. -/
def Obligations.AndOrActBitByBit : Prop :=
  ∀ va vb : Word,
    (∀ k, k < 32 → (alu .AND va vb).getLsbD k = (va.getLsbD k && vb.getLsbD k)) ∧
    (∀ k, k < 32 → (alu .OR va vb).getLsbD k = (va.getLsbD k || vb.getLsbD k)) ∧
    (alu .AND va vb).toInt = int32 (bits32 va.toInt &&& bits32 vb.toInt) ∧
    (alu .OR va vb).toInt = int32 (bits32 va.toInt ||| bits32 vb.toInt) ∧
    ((alu .AND va vb).toInt < 0 ↔ va.toInt < 0 ∧ vb.toInt < 0) ∧
    ((alu .OR va vb).toInt < 0 ↔ va.toInt < 0 ∨ vb.toInt < 0)

/-- R69, R72: PASS is `va`; GT and EQ on the signed values give 1 or 0. -/
def Obligations.PassAndCompareResults : Prop :=
  ∀ va vb : Word,
    alu .PASS va vb = va ∧
    (alu .GT va vb).toInt = truth (va.toInt > vb.toInt) ∧
    (alu .EQ va vb).toInt = truth (va.toInt = vb.toInt)

/-! ## Decoding and encoding -/

/-- Every instruction comes back from its word, with every operand at every value of its field. -/
def Obligations.DecodeOfEncodeIsIdentity : Prop :=
  ∀ i : Instr, decode (encode i) = i

/-- The word of the instruction a word decodes to is that word with bits 31:4 zero. -/
def Obligations.EncodeOfDecodeClearsReservedBits : Prop :=
  ∀ (w : InstrWord) (k : Nat), k < 128 →
    (encode (decode w)).getLsbD k = (w.getLsbD k && !(decide (4 ≤ k) && decide (k ≤ 31)))

/-- R32: words that agree outside bits 31:4 decode alike, and an assembler writes zero there. -/
def Obligations.ReservedBitsAreIgnored : Prop :=
  (∀ w w' : InstrWord, (∀ k, k < 4 ∨ (32 ≤ k ∧ k < 128) → w.getLsbD k = w'.getLsbD k) →
    decode w = decode w') ∧
  ∀ i : Instr, (encode i).extractLsb' 4 28 = 0

/-- R31, R33: the decoder takes op from bits 3:0 and the operands from their fields, unchanged. -/
def Obligations.DecodeReadsTheFields : Prop :=
  ∀ w : InstrWord,
    (decode w).opcode.toNat = w.toNat % 16 ∧
    (decode w).opA.toInt = int32 (w.extractLsb' 32 32) ∧
    (decode w).opB.toInt = int32 (w.extractLsb' 64 32) ∧
    (decode w).opC.toInt = int32 (w.extractLsb' 96 32)

/-- Words of spec/95_test_vectors.md (T2, T33, T38, T64, T65) decode to the instructions they name. -/
def Obligations.SpecWordsDecode : Prop :=
  decode 0x00000003_00000002_00000001_00000000 = .addr 1 2 3 ∧
  decode 0x00000002_00000063_00000001_00000008 = .setr 1 99 2 ∧
  decode 0x00000005_00000000_7FFFFFFF_00000009 = .seti 2147483647 0 5 ∧
  decode 0x00000001_00000006_00000009_0000000A = .gtir 9 6 1 ∧
  decode 0x00000007_FFFFFFFF_00000000_0000000E = .eqri 0 (-1) 7

/-- R23: the image of a word is its slots, slot 0 first, each little-endian; a word is read back from
it with the bytes after it. -/
def Obligations.ByteImageRoundTrip : Prop :=
  ∀ (w : InstrWord) (rest : List Byte),
    wordOfBytes (wordBytes w ++ rest) = .ok (w, rest) ∧
    (wordBytes w).length = 16 ∧
    ∀ slot byte : Nat, slot < 4 → byte < 4 →
      (wordBytes w)[4 * slot + byte]? = some (w.extractLsb' (32 * slot + 8 * byte) 8)

/-! ## The sequencer -/

/-- R44: on a running machine a STEP executes the instruction that PROG[pc] decodes to, PROG[k] being
the word that was loaded at k. -/
def Obligations.StepRunsDecodedInstruction : Prop :=
  (∀ (s : State) (i : Instr), Running s → decode (s.fetchInstr s.pc.toInt.toNat) = i →
    step s = exec i s) ∧
  ∀ (s : State) (k : Nat) (w : InstrWord), s.prog.read k = some w → s.fetchInstr k = w

/-- R43: a halted machine answers HALT, changes nothing else, whatever the binding, and does so
again. -/
def Obligations.HaltCheckChangesNothing : Prop :=
  ∀ s : State, Halted s →
    step s = .next { s with sres := .halt } ∧
    step { s with sres := .halt } = .next { s with sres := .halt }

/-- R45, R80: on a running machine the index check decides between the fault, with no other effect,
and an executed instruction; every opcode raises it through C and ipsel; after it every STEP answers
FAULT and changes nothing, and of the commands only INIT clears it. -/
def Obligations.BadIndexRaisesInvalidProgram : Prop :=
  (∀ s : State, Running s →
    (BadIndexOf (current s) s → step s = .next (raised s)) ∧
    (¬ BadIndexOf (current s) s → ∃ t, step s = .next t ∧ t.faulted = false ∧ t.sres = .cont)) ∧
  (∀ (i : Instr) (s : State), ¬ InRange i.opC.toInt ∨ ¬ InRange s.ipsel.toInt →
    exec i s = .next (raised s)) ∧
  ∀ s : State,
    step (raised s) = .next (raised s) ∧
    ∀ (c : Command) (t : State), command c (raised s) = .next t → (t.faulted = false ↔ c = .init)

/-- R83: the outcome of a STEP by priority: FAULT when faulted, HALT outside the program, FAULT on a
failed index check, CONTINUE otherwise. Every STEP answers one of them. -/
def Obligations.StepOutcomePriority : Prop :=
  ∀ s : State, ∃ t, step s = .next t ∧
    (s.faulted = true → t.sres = .fault) ∧
    (Halted s → t.sres = .halt) ∧
    (Running s → BadIndexOf (current s) s → t.sres = .fault) ∧
    (Running s → ¬ BadIndexOf (current s) s → t.sres = .cont)

/-- R42: STEP is the pseudocode of R42, transcribed on mathematical integers. -/
def Obligations.StepRefinesPseudocode : Prop :=
  ∀ s : State, step s = .next (stepOf s)

/-- After every STEP that executes, the binding names a register and that register holds pc (the
corrected sync property, V3; R55 is the spec's own derivation). -/
def Obligations.ContinueLeavesIpRegisterEqualPc : Prop :=
  ∀ s t : State, step s = .next t → t.sres = .cont →
    ∃ p : Fin 6, t.ipsel.toInt = (p.val : Int) ∧ t.x p = t.pc

/-- The invariants of the model are kept by every STEP: the program store stays canonical, within PMAX
and loaded below N; `sres` shows FAULT exactly while faulted; the ip register holds pc. -/
def Obligations.StepKeepsInvariants : Prop :=
  ∀ s t : State, s.StoreInv → s.FaultShown → s.Synced → step s = .next t →
    t.StoreInv ∧ t.FaultShown ∧ t.Synced

/-- The state after reset meets the invariants. -/
def Obligations.ResetMeetsInvariants : Prop :=
  State.reset.StoreInv ∧ State.reset.FaultShown ∧ State.reset.Synced

/-- Every state that commands reach from power-on has a canonical, loaded program store within PMAX,
and shows its fault in `sres`. -/
def Obligations.ReachableStatesAreConsistent : Prop :=
  ∀ s : State, Reachable s → s.StoreInv ∧ s.FaultShown

/-- INIT, one LOAD, then STEPs: the ip register holds pc before every STEP (R55 is the spec's own
derivation), from whatever state the session starts. An image longer than PMAX, which no platform
presents, is loaded as any other (log entry 11). -/
def Obligations.SessionKeepsIpRegisterSynced : Prop :=
  ∀ (s : State) (ip : Word) (seq : List InstrWord) (k : Nat),
    ∃ t, runCommands (session ip seq k) s = .next t ∧ t.Synced

/-- In a synced machine every instruction that reads the ip register, through either register source
or both, reads its own index: its whole effect is that of its ALU function on pc in the place of
x[ipsel] (R48). So `setr` from the ip register copies pc. -/
def Obligations.IpRegisterReadsOwnIndex : Prop :=
  (∀ (s : State) (i : Instr) (d p : Fin 6) (va vb : Int), s.Synced →
    s.ipsel.toInt = (p.val : Int) → i.opC.toInt = (d.val : Int) →
    ReadsOwnIndex s i.control.amode i.opA va → ReadsOwnIndex s i.control.bmode i.opB vb →
    ∃ t, exec i s = .next t ∧ Retired s t d p (aluInt i.control.alu va vb)) ∧
  ∀ (s : State) (a b c : Word) (d p : Fin 6), s.Synced → s.ipsel.toInt = (p.val : Int) →
    a.toInt = (p.val : Int) → c.toInt = (d.val : Int) → d ≠ p →
    ∃ t, exec (.setr a b c) s = .next t ∧ t.x d = s.pc

/-- Control transfer (the idioms of R53, the spec's own derivation): in a synced machine, with `p` the
ip register, `seti t _ p` goes to t + 1, `addi p k p` goes k + 1 further, `addr q p p` goes
x[q] + 1 further, and each leaves every other register alone. -/
def Obligations.WritesToIpRegisterJump : Prop :=
  ∀ (s : State) (ip k : Word) (p : Fin 6), s.Synced → s.ipsel.toInt = (p.val : Int) →
    ip.toInt = (p.val : Int) →
    (∀ b, ∃ t, exec (.seti k b ip) s = .next t ∧ t.pc.toInt = wrap32 (k.toInt + 1) ∧
      t.x p = t.pc ∧ ∀ j, j ≠ p → t.x j = s.x j) ∧
    (∃ t, exec (.addi ip k ip) s = .next t ∧ t.pc.toInt = wrap32 (s.pc.toInt + k.toInt + 1) ∧
      t.x p = t.pc ∧ ∀ j, j ≠ p → t.x j = s.x j) ∧
    (∀ q : Fin 6, k.toInt = (q.val : Int) →
      ∃ t, exec (.addr k ip ip) s = .next t ∧
        t.pc.toInt = wrap32 (s.pc.toInt + (s.x q).toInt + 1) ∧
        t.x p = t.pc ∧ ∀ j, j ≠ p → t.x j = s.x j)

/-- The stated sync property of the document in its corrected form (C2, V3): in a synced machine an
instruction that executes and whose C is not the ip register continues at pc + 1. -/
def Obligations.OtherInstructionsContinueAtNextPc : Prop :=
  ∀ (s t : State) (i : Instr), s.Synced → exec i s = .next t → t.sres = .cont →
    i.opC.toInt ≠ s.ipsel.toInt → t.pc.toInt = wrap32 (s.pc.toInt + 1)

/-- R54, for every instruction that executes: the next pc is the IP-sync mux's value plus 1, wrapped
to 32 bits (the mux's value being the result when C = ipsel, the old x[ipsel] otherwise); when that
value is 2^31 - 1 the next pc is -2^31, and a machine that was not faulted halts there. The last
clause is the same of `seti 2147483647`, in both ways it can meet the case. -/
def Obligations.PcIncrementWrapsAndHalts : Prop :=
  (∀ (s : State) (i : Instr) (d p : Fin 6) (va vb : Int),
    Executes s i.control.amode i.control.bmode i.opA i.opB i.opC d p va vb →
    ∃ t, exec i s = .next t ∧ t.x p = t.pc ∧
      t.pc.toInt = wrap32 (muxValue s d p (aluInt i.control.alu va vb) + 1) ∧
      (muxValue s d p (aluInt i.control.alu va vb) = 2 ^ 31 - 1 → t.pc.toInt = -2 ^ 31 ∧
        (s.faulted = false → step t = .next { t with sres := .halt }))) ∧
  ∀ (s : State) (b c : Word) (d p : Fin 6), s.faulted = false → s.ipsel.toInt = (p.val : Int) →
    c.toInt = (d.val : Int) → (d = p ∨ (s.x p).toInt = 2 ^ 31 - 1) →
    ∃ t, exec (.seti 2147483647 b c) s = .next t ∧ t.pc.toInt = -2 ^ 31 ∧
      step t = .next { t with sres := .halt }

/-- The frame of every instruction, whatever its operands (R11, R17, R52): it writes at most x[C],
x[ipsel], pc, the fault bit and `sres`; the binding, the length and every program word stay. -/
def Obligations.InstructionsWriteOnlyDestinationAndIpRegister : Prop :=
  ∀ (i : Instr) (s t : State), exec i s = .next t →
    (∀ k : Fin 6, (k.val : Int) ≠ i.opC.toInt → (k.val : Int) ≠ s.ipsel.toInt → t.x k = s.x k) ∧
    t.ipsel = s.ipsel ∧ t.n = s.n ∧ ∀ k, t.fetchInstr k = s.fetchInstr k

/-! ## The commands -/

/-- R92: the state after reset, HALTED until a LOAD of a program that is not empty. -/
def Obligations.ResetValues : Prop :=
  (∀ k : Fin 6, State.reset.x k = 0) ∧ State.reset.pc = 0 ∧ State.reset.n = 0 ∧
  State.reset.ipsel = 0 ∧ State.reset.faulted = false ∧ State.reset.sres = .none ∧
  State.reset.status = .halted ∧ step State.reset = .next { State.reset with sres := .halt } ∧
  ∀ (ip : Word) (w : InstrWord) (ws : List InstrWord),
    (State.reset.load ip (w :: ws)).status = .running

/-- INIT from any state: what it sets; that no other command clears the fault bit; and that NOP and
LOAD write neither the registers nor pc. That every word of the program store stays is the model's
reading of a store whose contents the spec calls unspecified (log entry 6). -/
def Obligations.InitClearsEverythingButProgram : Prop :=
  ∀ s : State, ∃ t, command .init s = .next t ∧
    (∀ k : Fin 6, t.x k = 0) ∧ t.pc = 0 ∧ t.n = 0 ∧ t.ipsel = 0 ∧ t.faulted = false ∧
    t.sres = .none ∧ (∀ k, t.fetchInstr k = s.fetchInstr k) ∧
    step t = .next { t with sres := .halt } ∧
    (∀ (c : Command) (u : State), s.faulted = true → command c s = .next u → u.faulted = false →
      c = .init) ∧
    (∀ (c : Command) (u : State), c ≠ .init → c ≠ .step → command c s = .next u →
      u.pc = s.pc ∧ ∀ k : Fin 6, u.x k = s.x k)

/-- LOAD replaces the binding, the length and the program, and nothing else; an empty program makes
every STEP answer HALT, and an illegal binding is stored and faults when a STEP executes. Two things
here are the model's and not R41's: that the entries past the image keep their words (log entry 6),
and what an image longer than PMAX does, which no platform presents (log entry 11). -/
def Obligations.LoadReplacesProgramOnly : Prop :=
  ∀ (s : State) (ip : Word) (seq : List InstrWord), ∃ t, command (.load ip seq) s = .next t ∧
    t.ipsel = ip ∧ t.n = seq.length ∧
    (∀ k (h : k < seq.length), t.fetchInstr k = seq[k]) ∧
    (∀ k, seq.length ≤ k → t.fetchInstr k = s.fetchInstr k) ∧
    (∀ k : Fin 6, t.x k = s.x k) ∧ t.pc = s.pc ∧ t.faulted = s.faulted ∧ t.sres = s.sres ∧
    (seq = [] → s.faulted = false →
      step t = .next { t with sres := .halt } ∧
      step { t with sres := .halt } = .next { t with sres := .halt }) ∧
    (¬ InRange ip.toInt → Running t → step t = .next (raised t))

/-- The first STEP after a LOAD runs the new program's instruction at pc (R29, the spec's own
derivation). An image longer than PMAX, which no platform presents, is loaded as any other (log entry
11). -/
def Obligations.FirstStepAfterLoadRunsNewProgram : Prop :=
  ∀ (s : State) (ip : Word) (seq : List InstrWord) (k : Nat) (h : k < seq.length),
    s.faulted = false → s.pc.toInt = (k : Int) →
    runCommands [.load ip seq, .step] s = exec (decode seq[k]) (s.load ip seq)

/-- R15: the fault bit: clear at reset; set by a STEP that fails the index check; by no other command;
cleared by INIT only; while it is set a
STEP answers FAULT and changes nothing. -/
def Obligations.FaultBitIsSticky : Prop :=
  State.reset.faulted = false ∧
  (∀ s : State, Running s → BadIndexOf (current s) s → ∃ t, step s = .next t ∧ t.faulted = true) ∧
  (∀ (c : Command) (s t : State), command c s = .next t →
    (s.faulted = false → t.faulted = true → c = .step) ∧
    (s.faulted = true → (t.faulted = false ↔ c = .init))) ∧
  ∀ s : State, s.faulted = true → step s = .next { s with sres := .fault }

/-- A faulted machine stays so, with its registers and pc, through every sequence of commands without
an INIT (R15, R85). -/
def Obligations.OnlyInitRecoversFromFault : Prop :=
  ∀ (cs : List Command) (s : State), s.faulted = true → (∀ c ∈ cs, c ≠ .init) →
    ∃ t, runCommands cs s = .next t ∧ t.faulted = true ∧ (∀ k : Fin 6, t.x k = s.x k) ∧
      t.pc = s.pc

/-- R16: the run status is derived from the fault bit, pc and N; a halted machine stays halted, and
unchanged but for `sres`, through every sequence of commands without a LOAD or an INIT. -/
def Obligations.HaltedIsTerminal : Prop :=
  (∀ s : State, (s.status = .halted ↔ Halted s) ∧ (s.status = .running ↔ Running s) ∧
    (s.status = .faulted ↔ s.faulted = true)) ∧
  (∀ s : State, s.faulted = false →
    ((∃ t, step s = .next t ∧ t.sres = .halt) ↔ s.pc.toInt < 0 ∨ (s.n : Int) ≤ s.pc.toInt)) ∧
  ∀ (cs : List Command) (s : State), Halted s → (∀ c ∈ cs, c = .nop ∨ c = .step) →
    ∃ r, runCommands cs s = .next { s with sres := r }

/-- R13: the binding register: 0 at reset and after INIT; LOAD stores any value; no instruction, no
STEP and no NOP writes it; an illegal value makes an executing STEP fault. -/
def Obligations.BindingIsWrittenByLoadAndInitOnly : Prop :=
  State.reset.ipsel = 0 ∧
  (∀ (c : Command) (s t : State), command c s = .next t →
    t.ipsel = match c with | .load ip _ => ip | .init => 0 | .nop => s.ipsel | .step => s.ipsel) ∧
  (∀ (i : Instr) (s t : State), exec i s = .next t → t.ipsel = s.ipsel) ∧
  ∀ s : State, Running s → ¬ InRange s.ipsel.toInt → step s = .next (raised s)

/-- R14: the program length: 0 at reset and after INIT, the length of the image after LOAD, unchanged
otherwise; read by the halt check; at most PMAX in every state that commands reach. -/
def Obligations.LengthIsWrittenByLoadAndInitOnly : Prop :=
  State.reset.n = 0 ∧
  (∀ (c : Command) (s t : State), command c s = .next t →
    t.n = match c with
      | .load _ seq => seq.length | .init => 0 | .nop => s.n | .step => s.n) ∧
  (∀ s : State, Halted s → step s = .next { s with sres := .halt }) ∧
  ∀ s : State, Reachable s → s.n ≤ Config.pmax

/-- R50: the step-result register and its codes. -/
def Obligations.StepResultRegister : Prop :=
  (StepResult.halt.code = 0b00 ∧ StepResult.cont.code = 0b01 ∧ StepResult.fault.code = 0b10 ∧
    StepResult.none.code = 0b11) ∧
  ∀ s : State,
    (∃ t, command .init s = .next t ∧ t.sres = .none) ∧
    (∃ t, command .nop s = .next t ∧ t.sres = s.sres) ∧
    (∀ ip seq, ∃ t, command (.load ip seq) s = .next t ∧ t.sres = s.sres) ∧
    (∃ t, command .step s = .next t ∧
      (t.sres = .halt ∨ t.sres = .cont ∨ t.sres = .fault) ∧
      (t.sres = .halt ↔ Halted s) ∧
      (t.sres = .cont ↔ Running s ∧ ¬ BadIndexOf (current s) s))

/-- The ports (R40, R49): the command codes, NOP holding the state, and the outputs. -/
def Obligations.PortsFollowTheirCodes : Prop :=
  ∀ (ip : Word) (seq : List InstrWord) (s : State),
    clockEdge ⟨0b00, ip, seq⟩ s = .next s ∧
    clockEdge ⟨0b01, ip, seq⟩ s = step s ∧
    clockEdge ⟨0b10, ip, seq⟩ s = .next (s.load ip seq) ∧
    clockEdge ⟨0b11, ip, seq⟩ s = .next s.init ∧
    s.outputs.pcOut = s.pc ∧ s.outputs.regsOut = s.regs ∧ s.outputs.faultedOut = s.faulted ∧
    s.outputs.sres = s.sres.code ∧ (s.outputs.haltedOut = true ↔ Halted s)

/-! ## Whole runs -/

/-- R94: INIT, LOAD and k STEPs give the same outputs, binding, length and program from whatever state
they start: what an earlier run left in the program store cannot be seen. An image longer than PMAX,
which no platform presents, is loaded as any other (log entry 11). -/
def Obligations.SessionForgetsEarlierState : Prop :=
  ∀ (s₁ s₂ : State) (ip : Word) (seq : List InstrWord) (k : Nat), ∃ t₁ t₂,
    runCommands (session ip seq k) s₁ = .next t₁ ∧ runCommands (session ip seq k) s₂ = .next t₂ ∧
    t₁.outputs = t₂.outputs ∧ t₁.ipsel = t₂.ipsel ∧ t₁.n = t₂.n ∧
    ∀ j, j < t₁.n → t₁.fetchInstr j = t₂.fetchInstr j

/-- A machine whose loaded words are all well formed, under a legal binding, never faults: each STEP
leaves it so and answers HALT or CONTINUE. -/
def Obligations.SafeMachineNeverFaults : Prop :=
  ∀ s : State, s.Safe → ∃ t, step s = .next t ∧ t.Safe ∧ (t.sres = .halt ∨ t.sres = .cont)

/-- A well-formed program, assembled, loaded after INIT and run for any number of STEPs, never
raises the fault. A program longer than PMAX, which no platform presents, is loaded as any other (log
entry 11). -/
def Obligations.WellFormedProgramNeverFaults : Prop :=
  ∀ (s : State) (ip : Word) (prog : List Instr) (k : Nat), ProgramWellFormed ip prog →
    ∃ t, runCommands (session ip (prog.map encode) k) s = .next t ∧ t.faulted = false ∧
      t.sres ≠ .fault

/-! ## The assembly notation -/

/-- An instruction line of the grammar, its numbers at most 2^31 - 1, assembles to the word of its
mnemonic's opcode and its three numbers in order; a line with a greater number is rejected (R37, R39).
The parser itself is outside the machine (R3). -/
def Obligations.InstructionLineAssembles : Prop :=
  ∀ (op : Fin 16) (name : List Char) (da db dc : List (Fin 10)),
    mnemonics[op.val]? = some name → da ≠ [] → db ≠ [] → dc ≠ [] →
    assembleLine (name ++ ' ' :: numeral da ++ ' ' :: numeral db ++ ' ' :: numeral dc) =
      if digitsValue da < 2 ^ 31 ∧ digitsValue db < 2 ^ 31 ∧ digitsValue dc < 2 ^ 31 then
        .ok (encode (instrOfFields op (BitVec.ofNat 32 (digitsValue da))
          (BitVec.ofNat 32 (digitsValue db)) (BitVec.ofNat 32 (digitsValue dc))))
      else .error .numberTooLarge

/-! ## The invariants under every command -/

/-- Every command that can be given, LOAD and INIT among them, keeps the invariants of the program
store and of the fault bit, from every state that meets them. -/
def Obligations.CommandsKeepStoreAndFaultInvariants : Prop :=
  ∀ (c : Command) (s t : State), s.StoreInv → s.FaultShown → c.Presentable →
    command c s = .next t → t.StoreInv ∧ t.FaultShown
end

