-- ==== Sys2Proof/Laws/Decode.lean ====
section
/-! SUPPORT. The fields of a word made of four slots (R30). -/

namespace Sys2Proof

theorem opField_wordOfSlots (op : BitVec 4) (a b c : Word) :
    opField (wordOfSlots (slot0 op) a b c) = op := by
  ext i hi
  simp only [opField, wordOfSlots, slot0, BitVec.getElem_extractLsb', BitVec.getLsbD_append]
  simp [show i < 32 by omega, hi]

theorem resField_wordOfSlots (op : BitVec 4) (a b c : Word) :
    resField (wordOfSlots (slot0 op) a b c) = 0 := by
  ext i hi
  simp only [resField, wordOfSlots, slot0, BitVec.getElem_extractLsb', BitVec.getLsbD_append]
  simp [show 4 + i < 32 by omega]

theorem fieldA_wordOfSlots (s0 a b c : Word) : fieldA (wordOfSlots s0 a b c) = a := by
  ext i hi
  simp only [fieldA, wordOfSlots, BitVec.getElem_extractLsb', BitVec.getLsbD_append]
  simp [hi, show 32 + i - 32 = i by omega]

theorem fieldB_wordOfSlots (s0 a b c : Word) : fieldB (wordOfSlots s0 a b c) = b := by
  ext i hi
  simp only [fieldB, wordOfSlots, BitVec.getElem_extractLsb', BitVec.getLsbD_append]
  simp [show ¬ 64 + i < 32 by omega, show 64 + i - 32 = 32 + i by omega, hi]

theorem fieldC_wordOfSlots (s0 a b c : Word) : fieldC (wordOfSlots s0 a b c) = c := by
  ext i hi
  simp only [fieldC, wordOfSlots, BitVec.getElem_extractLsb', BitVec.getLsbD_append]
  simp [show ¬ 96 + i < 32 by omega, show ¬ 64 + i < 32 by omega, show 96 + i - 32 = 64 + i by omega,
    show 64 + i - 32 = 32 + i by omega, show 32 + i - 32 = i by omega,
    BitVec.getLsbD_eq_getElem hi]

end Sys2Proof
end

