-- ==== Sys2Proof/Laws/Operands.lean ====
section
/-! SUPPORT. The register-index check (R45): when it passes and which register it names. -/

namespace Sys2Proof.Machine

/-- The check passes with register `i` exactly when the signed value is `i`. -/
theorem regIndex_eq_some {k : Word} {i : Fin 6} : regIndex k = some i ↔ k.toInt = (i.val : Int) := by
  unfold regIndex
  split
  · next h =>
    simp only [Option.some.injEq, Fin.ext_iff]
    omega
  · next h =>
    have := i.isLt
    simp only [reduceCtorEq, false_iff]
    omega

/-- The check fails exactly when the value is no register index. -/
theorem regIndex_eq_none {k : Word} : regIndex k = none ↔ ¬ IndexOK k := by
  unfold regIndex IndexOK; split <;> simp_all

/-- A value in range is the index of some register. -/
theorem indexOK_iff {k : Word} : IndexOK k ↔ ∃ i : Fin 6, k.toInt = (i.val : Int) := by
  constructor
  · intro h
    exact ⟨⟨k.toInt.toNat, by have := h.1; have := h.2; omega⟩, by have := h.1; simp; omega⟩
  · rintro ⟨i, hi⟩
    have := i.isLt
    exact ⟨by omega, by omega⟩

/-- What the well-formedness check says of an instruction. -/
theorem wellFormed_iff {i : Instr} : i.WellFormed ↔ ∀ k ∈ i.regOperands, IndexOK k := by
  simp [Instr.WellFormed, Instr.wellFormed]

/-- What the well-formedness check says of a program. -/
theorem programWellFormed_iff {ip : Word} {prog : List Instr} :
    ProgramWellFormed ip prog ↔ IndexOK ip ∧ prog ≠ [] ∧ ∀ i ∈ prog, i.WellFormed := by
  simp [ProgramWellFormed, programWellFormed, and_assoc]

end Sys2Proof.Machine
end

