-- ==== Sys2Proof/Laws/State.lean ====
section
/-! SUPPORT. One lemma per field per update of State, true by rfl, so that no proof unfolds a record
update; and what the register accessors give. -/

namespace Sys2Proof.Machine

variable (s : State) (k d p : Fin 6) (v res : Word)

/-! ## setX -/

@[simp] theorem setX_pc : (s.setX k v).pc = s.pc := rfl
@[simp] theorem setX_ipsel : (s.setX k v).ipsel = s.ipsel := rfl
@[simp] theorem setX_n : (s.setX k v).n = s.n := rfl
@[simp] theorem setX_prog : (s.setX k v).prog = s.prog := rfl
@[simp] theorem setX_faulted : (s.setX k v).faulted = s.faulted := rfl
@[simp] theorem setX_sres : (s.setX k v).sres = s.sres := rfl

@[simp] theorem x_setX_same : (s.setX k v).x k = v := by
  simp [State.x, State.setX]

theorem x_setX_of_ne {j : Fin 6} (h : j ≠ k) : (s.setX k v).x j = s.x j := by
  have : k.val ≠ j.val := fun e => h (Fin.ext e.symm)
  simp [State.x, State.setX, this]

theorem x_setX (j : Fin 6) : (s.setX k v).x j = if j = k then v else s.x j := by
  split
  · next h => subst h; simp
  · next h => exact x_setX_of_ne s k v h

/-! ## The fault and the halt -/

@[simp] theorem raiseInvalidProgram_regs : s.raiseInvalidProgram.regs = s.regs := rfl
@[simp] theorem raiseInvalidProgram_x : s.raiseInvalidProgram.x k = s.x k := rfl
@[simp] theorem raiseInvalidProgram_pc : s.raiseInvalidProgram.pc = s.pc := rfl
@[simp] theorem raiseInvalidProgram_ipsel : s.raiseInvalidProgram.ipsel = s.ipsel := rfl
@[simp] theorem raiseInvalidProgram_n : s.raiseInvalidProgram.n = s.n := rfl
@[simp] theorem raiseInvalidProgram_prog : s.raiseInvalidProgram.prog = s.prog := rfl
@[simp] theorem raiseInvalidProgram_faulted : s.raiseInvalidProgram.faulted = true := rfl
@[simp] theorem raiseInvalidProgram_sres : s.raiseInvalidProgram.sres = .fault := rfl

@[simp] theorem answerFault_regs : s.answerFault.regs = s.regs := rfl
@[simp] theorem answerFault_x : s.answerFault.x k = s.x k := rfl
@[simp] theorem answerFault_pc : s.answerFault.pc = s.pc := rfl
@[simp] theorem answerFault_ipsel : s.answerFault.ipsel = s.ipsel := rfl
@[simp] theorem answerFault_n : s.answerFault.n = s.n := rfl
@[simp] theorem answerFault_prog : s.answerFault.prog = s.prog := rfl
@[simp] theorem answerFault_faulted : s.answerFault.faulted = s.faulted := rfl
@[simp] theorem answerFault_sres : s.answerFault.sres = .fault := rfl

@[simp] theorem answerHalt_regs : s.answerHalt.regs = s.regs := rfl
@[simp] theorem answerHalt_x : s.answerHalt.x k = s.x k := rfl
@[simp] theorem answerHalt_pc : s.answerHalt.pc = s.pc := rfl
@[simp] theorem answerHalt_ipsel : s.answerHalt.ipsel = s.ipsel := rfl
@[simp] theorem answerHalt_n : s.answerHalt.n = s.n := rfl
@[simp] theorem answerHalt_prog : s.answerHalt.prog = s.prog := rfl
@[simp] theorem answerHalt_faulted : s.answerHalt.faulted = s.faulted := rfl
@[simp] theorem answerHalt_sres : s.answerHalt.sres = .halt := rfl

/-! ## retire: the end of an executed step (R46) -/

@[simp] theorem retire_pc : (s.retire d p res).pc = s.nextPc d p res := rfl
@[simp] theorem retire_sres : (s.retire d p res).sres = .cont := rfl

@[simp] theorem retire_ipsel : (s.retire d p res).ipsel = s.ipsel := by
  unfold State.retire; dsimp only; split <;> rfl

@[simp] theorem retire_n : (s.retire d p res).n = s.n := by
  unfold State.retire; dsimp only; split <;> rfl

@[simp] theorem retire_prog : (s.retire d p res).prog = s.prog := by
  unfold State.retire; dsimp only; split <;> rfl

@[simp] theorem retire_faulted : (s.retire d p res).faulted = s.faulted := by
  unfold State.retire; dsimp only; split <;> rfl

/-- Every register after an executed step: x[ipsel] is the next pc, x[C] the result when C is another
register, and every other register is as before (R46). -/
theorem retire_x (j : Fin 6) :
    (s.retire d p res).x j = if j = p then s.nextPc d p res else if j = d then res else s.x j := by
  have h : (s.retire d p res).x j =
      ((if d = p then s else s.setX d res).setX p (s.nextPc d p res)).x j := rfl
  rw [h, x_setX]
  split
  · rfl
  · next hj =>
    split
    · next hd => subst hd; simp [hj]
    · exact x_setX s d res j

/-! ## init and load -/

@[simp] theorem reset_x : State.reset.x k = 0 := by simp [State.x, State.reset]

@[simp] theorem init_x : s.init.x k = 0 := reset_x k
@[simp] theorem init_regs : s.init.regs = State.reset.regs := rfl
@[simp] theorem init_pc : s.init.pc = 0 := rfl
@[simp] theorem init_ipsel : s.init.ipsel = 0 := rfl
@[simp] theorem init_n : s.init.n = 0 := rfl
@[simp] theorem init_prog : s.init.prog = s.prog := rfl
@[simp] theorem init_faulted : s.init.faulted = false := rfl
@[simp] theorem init_sres : s.init.sres = .none := rfl

variable (ip : Word) (seq : List InstrWord)

@[simp] theorem load_regs : (s.load ip seq).regs = s.regs := rfl
@[simp] theorem load_x : (s.load ip seq).x k = s.x k := rfl
@[simp] theorem load_pc : (s.load ip seq).pc = s.pc := rfl
@[simp] theorem load_ipsel : (s.load ip seq).ipsel = ip := rfl
@[simp] theorem load_n : (s.load ip seq).n = seq.length := rfl
@[simp] theorem load_prog : (s.load ip seq).prog = s.prog.writeImage 0 seq := rfl
@[simp] theorem load_faulted : (s.load ip seq).faulted = s.faulted := rfl
@[simp] theorem load_sres : (s.load ip seq).sres = s.sres := rfl

end Sys2Proof.Machine
end

