-- ==== Sys2Proof/Laws/Execute.lean ====
section
/-! SUPPORT. What executing an instruction can do: it always answers a next state, and that state is
either the retired one or the faulted one. -/

namespace Sys2Proof.Machine

/-- All checks pass: the result retires. -/
theorem execute_retires {f : AluFn} {a b : Operand} {c : Word} {s : State} {va vb : Word}
    {d p : Fin 6} (ha : a.fetch s = some va) (hb : b.fetch s = some vb)
    (hc : c.toInt = (d.val : Int)) (hp : s.ipsel.toInt = (p.val : Int)) :
    execute f a b c s = .next (s.retire d p (alu f va vb)) := by
  unfold execute
  rw [ha, hb, regIndex_eq_some.2 hc, regIndex_eq_some.2 hp]

/-- A check fails: the fault is raised. -/
theorem execute_raises {f : AluFn} {a b : Operand} {c : Word} {s : State}
    (h : a.fetch s = none ∨ b.fetch s = none ∨ ¬ IndexOK c ∨ ¬ IndexOK s.ipsel) :
    execute f a b c s = .next s.raiseInvalidProgram := by
  rw [← regIndex_eq_none, ← regIndex_eq_none] at h
  unfold execute
  split
  · simp_all
  · rfl

/-- Executing retires a result or raises the fault; there is no third outcome. -/
theorem execute_cases (f : AluFn) (a b : Operand) (c : Word) (s : State) :
    (∃ va vb d p, a.fetch s = some va ∧ b.fetch s = some vb ∧ c.toInt = ((d : Fin 6).val : Int) ∧
      s.ipsel.toInt = ((p : Fin 6).val : Int) ∧
      execute f a b c s = .next (s.retire d p (alu f va vb))) ∨
    ((a.fetch s = none ∨ b.fetch s = none ∨ ¬ IndexOK c ∨ ¬ IndexOK s.ipsel) ∧
      execute f a b c s = .next s.raiseInvalidProgram) := by
  by_cases h : a.fetch s = none ∨ b.fetch s = none ∨ ¬ IndexOK c ∨ ¬ IndexOK s.ipsel
  · exact .inr ⟨h, execute_raises h⟩
  · simp only [not_or, not_not] at h
    obtain ⟨ha, hb, hc, hp⟩ := h
    obtain ⟨va, ha⟩ := Option.ne_none_iff_exists'.1 ha
    obtain ⟨vb, hb⟩ := Option.ne_none_iff_exists'.1 hb
    obtain ⟨d, hc⟩ := indexOK_iff.1 hc
    obtain ⟨p, hp⟩ := indexOK_iff.1 hp
    exact .inl ⟨va, vb, d, p, ha, hb, hc, hp, execute_retires ha hb hc hp⟩

/-- Every arm of `exec` is `execute` on the control signals that the decode table gives the opcode
(R35). -/
theorem exec_eq_execute (i : Instr) (s : State) :
    exec i s = execute i.control.alu (.ofMode i.control.amode i.opA)
      (.ofMode i.control.bmode i.opB) i.opC s := by
  cases i <;> rfl

end Sys2Proof.Machine
end

