-- ==== Sys2Proof/Laws/Memory.lean ====
section
/-! SUPPORT. The program store: a read after a write, and that every operation keeps the canonical
form. -/

namespace Sys2Proof.Machine

/-- A read after a write: the written index gives the word, every other index is as before. -/
theorem read_write (m : Memory) (k j : Nat) (w : InstrWord) :
    (m.write k w).read j = if j = k then some w else m.read j := by
  induction m with
  | nil => simp [Memory.write, Memory.read, eq_comm]
  | cons c m ih =>
    obtain ⟨i, v⟩ := c
    unfold Memory.write
    split
    · simp [Memory.read, eq_comm]
    · split
      · next h => subst h; simp only [Memory.read, eq_comm]; split <;> rfl
      · next h =>
        simp only [Memory.read, ih]
        split
        · next e => subst e; simp [Ne.symm h]
        · rfl

/-- A read after a whole image was written from index `k` on. -/
theorem read_writeImage (ws : List InstrWord) (m : Memory) (k j : Nat) :
    (m.writeImage k ws).read j =
      if k ≤ j ∧ j < k + ws.length then ws[j - k]? else m.read j := by
  induction ws generalizing m k with
  | nil => simp [Memory.writeImage]
  | cons w ws ih =>
    simp only [Memory.writeImage, ih, read_write, List.length_cons]
    rcases Nat.lt_trichotomy j k with h | h | h
    · simp [show ¬ (k + 1 ≤ j) by omega, show ¬ (k ≤ j) by omega, show ¬ j = k by omega]
    · subst h; simp
    · obtain ⟨d, rfl⟩ : ∃ d, j = k + 1 + d := ⟨j - (k + 1), by omega⟩
      have e1 : k + 1 + d - k = d + 1 := by omega
      have e2 : k + 1 + d - (k + 1) = d := by omega
      have e3 : ¬ k + 1 + d = k := by omega
      simp only [e1, e2, e3, if_false, List.getElem?_cons_succ]
      by_cases hd : d < ws.length
      · simp [show k + 1 + d < k + 1 + ws.length by omega,
          show k + 1 + d < k + (ws.length + 1) by omega, show k ≤ k + 1 + d by omega]
      · simp [show ¬ k + 1 + d < k + 1 + ws.length by omega,
          show ¬ k + 1 + d < k + (ws.length + 1) by omega]

/-- The indices after a write: the old ones and the written one. -/
theorem mem_write_keys {m : Memory} {k j : Nat} {w : InstrWord}
    (h : j ∈ (m.write k w).map Prod.fst) : j = k ∨ j ∈ m.map Prod.fst := by
  induction m with
  | nil => simpa [Memory.write] using h
  | cons c m ih =>
    obtain ⟨i, v⟩ := c
    unfold Memory.write at h
    split at h
    · simpa using h
    · split at h
      · next e => subst e; simpa using h
      · simp only [List.map_cons, List.mem_cons] at h ⊢
        rcases h with h | h
        · exact .inr (.inl h)
        · exact (ih h).imp id .inr

/-- A write keeps the canonical form. -/
theorem write_wf {m : Memory} (h : m.wf) (k : Nat) (w : InstrWord) : (m.write k w).wf := by
  induction m with
  | nil => simp [Memory.write, Memory.wf]
  | cons c m ih =>
    obtain ⟨i, v⟩ := c
    simp only [Memory.wf, List.map_cons, List.pairwise_cons] at h
    unfold Memory.write
    split
    · next hk =>
      simp only [Memory.wf, List.map_cons, List.pairwise_cons]
      refine ⟨fun j hj => ?_, h⟩
      rcases List.mem_cons.1 hj with rfl | hj
      · exact hk
      · exact Nat.lt_trans hk (h.1 j hj)
    · split
      · next e => subst e; simpa [Memory.wf] using h
      · next hk hne =>
        simp only [Memory.wf, List.map_cons, List.pairwise_cons]
        refine ⟨fun j hj => ?_, ih h.2⟩
        rcases mem_write_keys hj with rfl | hj
        · omega
        · exact h.1 j hj

/-- Writing an image keeps the canonical form. -/
theorem writeImage_wf (ws : List InstrWord) {m : Memory} (h : m.wf) (k : Nat) :
    (m.writeImage k ws).wf := by
  induction ws generalizing m k with
  | nil => exact h
  | cons w ws ih => exact ih (write_wf h k w) (k + 1)

/-- The store after reset is canonical. -/
theorem reset_prog_wf : State.reset.prog.wf := List.Pairwise.nil

/-- The store after a LOAD is canonical. -/
theorem load_wf {s : State} (h : s.prog.wf) (ip : Word) (seq : List InstrWord) :
    (s.load ip seq).prog.wf := writeImage_wf seq h 0

/-- The store after an INIT is canonical. -/
theorem init_wf {s : State} (h : s.prog.wf) : s.init.prog.wf := h

/-- A canonical store is determined by what it reads: equal memories are equal data. -/
theorem wf_ext {m m' : Memory} (h : m.wf) (h' : m'.wf) (e : ∀ k, m.read k = m'.read k) : m = m' := by
  have above : ∀ {l : Memory} {i : Nat}, (∀ j ∈ l.map Prod.fst, i < j) → l.read i = none := by
    intro l
    induction l with
    | nil => intros; rfl
    | cons c l ih =>
      intro i hl
      have h1 : i < c.1 := hl c.1 (by simp)
      rw [Memory.read, if_neg (by omega)]
      exact ih fun j hj => hl j (by simp only [List.map_cons, List.mem_cons]; exact .inr hj)
  induction m generalizing m' with
  | nil =>
    cases m' with
    | nil => rfl
    | cons c _ => simpa [Memory.read] using e c.1
  | cons c m ih =>
    cases m' with
    | nil => simpa [Memory.read] using e c.1
    | cons c' m' =>
      obtain ⟨i, v⟩ := c
      obtain ⟨i', v'⟩ := c'
      simp only [Memory.wf, List.map_cons, List.pairwise_cons] at h h'
      have key : i = i' := by
        rcases Nat.lt_trichotomy i i' with hi | hi | hi
        · have := e i
          rw [Memory.read, if_pos rfl, Memory.read, if_neg (by omega),
            above fun j hj => Nat.lt_trans hi (h'.1 j hj)] at this
          cases this
        · exact hi
        · have := e i'
          rw [Memory.read, if_neg (by omega), above fun j hj => Nat.lt_trans hi (h.1 j hj),
            Memory.read, if_pos rfl] at this
          cases this
      subst key
      have hv : v = v' := by simpa [Memory.read] using e i
      subst hv
      have hrest : m = m' := by
        refine ih h.2 h'.2 fun k => ?_
        by_cases hk : i = k
        · subst hk; rw [above h.1, above h'.1]
        · simpa [Memory.read, hk] using e k
      rw [hrest]

end Sys2Proof.Machine
end

