-- ==== Sys2Proof/Laws/PerInstr.lean ====
section
/-! SUPPORT. Facts stated once per instruction: what the four fields of an encoded instruction hold
(spec/30_encoding.md R30, R32 to R34). -/

namespace Sys2Proof.Laws.EncodedFields

/-- The fields of an instruction's word: its opcode number, zero in the reserved bits, its operands. -/
def Statement (i : Instr) : Prop :=
  opField (encode i) = i.opcode ∧ resField (encode i) = 0 ∧ fieldA (encode i) = i.opA ∧
    fieldB (encode i) = i.opB ∧ fieldC (encode i) = i.opC

theorem of_slots (op : BitVec 4) (a b c : Word) :
    opField (wordOfSlots (slot0 op) a b c) = op ∧ resField (wordOfSlots (slot0 op) a b c) = 0 ∧
      fieldA (wordOfSlots (slot0 op) a b c) = a ∧ fieldB (wordOfSlots (slot0 op) a b c) = b ∧
      fieldC (wordOfSlots (slot0 op) a b c) = c :=
  ⟨opField_wordOfSlots op a b c, resField_wordOfSlots op a b c, fieldA_wordOfSlots _ a b c,
    fieldB_wordOfSlots _ a b c, fieldC_wordOfSlots _ a b c⟩

theorem addr (a b c : Word) : Statement (.addr a b c) := of_slots 0 a b c
theorem addi (a b c : Word) : Statement (.addi a b c) := of_slots 1 a b c
theorem mulr (a b c : Word) : Statement (.mulr a b c) := of_slots 2 a b c
theorem muli (a b c : Word) : Statement (.muli a b c) := of_slots 3 a b c
theorem banr (a b c : Word) : Statement (.banr a b c) := of_slots 4 a b c
theorem bani (a b c : Word) : Statement (.bani a b c) := of_slots 5 a b c
theorem borr (a b c : Word) : Statement (.borr a b c) := of_slots 6 a b c
theorem bori (a b c : Word) : Statement (.bori a b c) := of_slots 7 a b c
theorem setr (a b c : Word) : Statement (.setr a b c) := of_slots 8 a b c
theorem seti (a b c : Word) : Statement (.seti a b c) := of_slots 9 a b c
theorem gtir (a b c : Word) : Statement (.gtir a b c) := of_slots 10 a b c
theorem gtri (a b c : Word) : Statement (.gtri a b c) := of_slots 11 a b c
theorem gtrr (a b c : Word) : Statement (.gtrr a b c) := of_slots 12 a b c
theorem eqir (a b c : Word) : Statement (.eqir a b c) := of_slots 13 a b c
theorem eqri (a b c : Word) : Statement (.eqri a b c) := of_slots 14 a b c
theorem eqrr (a b c : Word) : Statement (.eqrr a b c) := of_slots 15 a b c

end Sys2Proof.Laws.EncodedFields
end

