-- ==== Sys2Proof/Laws/Step.lean ====
section
/-! SUPPORT. What one STEP and one command can do, said once. -/

namespace Sys2Proof.Machine

theorem inProgram_iff {s : State} :
    s.inProgram = true ↔ 0 ≤ s.pc.toInt ∧ s.pc.toInt < (s.n : Int) := by
  simp [State.inProgram]

/-- A STEP on a faulted machine. -/
theorem step_of_faulted {s : State} (h : s.faulted = true) : step s = .next s.answerFault := by
  simp [step, State.issue, State.status, h]

/-- A STEP on a halted machine. -/
theorem step_of_halted {s : State} (h : s.faulted = false) (hp : s.inProgram = false) :
    step s = .next s.answerHalt := by
  simp [step, State.issue, State.status, h, hp]

/-- A STEP on a running machine. -/
theorem step_of_running {s : State} (h : s.faulted = false) (hp : s.inProgram = true) :
    step s = exec (decode (s.fetchInstr s.pc.toNat)) s := by
  simp [step, State.issue, State.status, h, hp]

/-- One STEP does exactly one of four things: it answers FAULT, it answers HALT, it raises the fault,
or it retires the result of the fetched instruction. -/
theorem step_cases (s : State) :
    (s.faulted = true ∧ step s = .next s.answerFault) ∨
    (s.faulted = false ∧ s.inProgram = false ∧ step s = .next s.answerHalt) ∨
    (s.faulted = false ∧ s.inProgram = true ∧ step s = .next s.raiseInvalidProgram) ∨
    (s.faulted = false ∧ s.inProgram = true ∧ ∃ d p res, s.ipsel.toInt = ((p : Fin 6).val : Int) ∧
      step s = .next (s.retire d p res)) := by
  cases hf : s.faulted with
  | true => exact .inl ⟨rfl, step_of_faulted hf⟩
  | false =>
    cases hp : s.inProgram with
    | false => exact .inr (.inl ⟨rfl, rfl, step_of_halted hf hp⟩)
    | true =>
      rw [step_of_running hf hp, exec_eq_execute]
      rcases execute_cases _ _ _ _ s with ⟨va, vb, d, p, _, _, _, hi, h⟩ | ⟨_, h⟩
      · exact .inr (.inr (.inr ⟨rfl, rfl, d, p, _, hi, h⟩))
      · exact .inr (.inr (.inl ⟨rfl, rfl, h⟩))

/-- What a STEP leaves in the fields that only commands write: the binding, the length, the store. -/
theorem step_frame {s t : State} (h : step s = .next t) :
    t.ipsel = s.ipsel ∧ t.n = s.n ∧ t.prog = s.prog := by
  rcases step_cases s with ⟨_, e⟩ | ⟨_, _, e⟩ | ⟨_, _, e⟩ | ⟨_, _, d, p, res, _, e⟩ <;>
    (rw [e] at h; cases h; simp)

@[simp] theorem command_nop (s : State) : command .nop s = .next s := rfl
@[simp] theorem command_step (s : State) : command .step s = step s := rfl
@[simp] theorem command_load (s : State) (ip : Word) (seq : List InstrWord) :
    command (.load ip seq) s = .next (s.load ip seq) := rfl
@[simp] theorem command_init (s : State) : command .init s = .next s.init := rfl

/-- The store invariant speaks of the length and the store only. -/
theorem storeInv_congr {s t : State} (h : s.StoreInv) (hn : t.n = s.n) (hp : t.prog = s.prog) :
    t.StoreInv :=
  ⟨hp ▸ h.canonical, hp ▸ h.within, hn ▸ h.lengthFits, by rw [hn, hp]; exact h.loaded⟩

/-- A LOAD of an image that fits gives the store invariant, from a canonical store within PMAX. -/
theorem load_storeInv {s : State} {ip : Word} {seq : List InstrWord} (h : s.StoreInv)
    (hl : seq.length ≤ Config.pmax) : (s.load ip seq).StoreInv := by
  refine ⟨load_wf h.canonical _ _, fun k w hw => ?_, hl, fun k hk => ?_⟩
  · simp only [load_prog, read_writeImage] at hw
    split at hw
    · omega
    · exact h.within k w hw
  · simp only [load_n] at hk
    exact ⟨seq[k], by simp [read_writeImage, hk]⟩

/-- An INIT keeps the store invariant. -/
theorem init_storeInv {s : State} (h : s.StoreInv) : s.init.StoreInv :=
  ⟨h.canonical, h.within, Nat.zero_le _, nofun⟩

/-- PMAX is within the bounds of R6. -/
theorem pmax_bounds : 1 ≤ Config.pmax ∧ Config.pmax ≤ 2 ^ 31 - 1 := by
  unfold Config.pmax Config.pmaxLimit
  omega

end Sys2Proof.Machine
end

