-- ==== Sys2Proof/Tests/Slice0.lean ====
section
/-! SUPPORT. The model's own tests: words written out from spec/30_encoding.md, vectors of
spec/95_test_vectors.md, the smoke test of WellFormed, and a witness for the hypotheses of each
obligation. Every expected result is the spec's. -/

namespace Sys2Proof.Tests

open Sys2Proof.Machine Sys2Proof.Reference Sys2Proof.Claims

/-! ## WellFormed: each check refuses an ill-formed term -/

theorem smoke_wellFormed : (Instr.addr 5 0 3).WellFormed := by decide
theorem smoke_register_A_refused : ¬ (Instr.addr 6 0 3).WellFormed := by decide
theorem smoke_register_A_negative_refused : ¬ (Instr.setr (-1) 0 3).WellFormed := by decide
theorem smoke_register_B_refused : ¬ (Instr.gtir 9 6 1).WellFormed := by decide
theorem smoke_register_C_refused : ¬ (Instr.seti 0 0 6).WellFormed := by decide
theorem smoke_immediate_B_unchecked : (Instr.addi 0 99 1).WellFormed := by decide
theorem smoke_unused_B_unchecked : (Instr.setr 1 99 2).WellFormed := by decide
theorem smoke_program_ip_refused : ¬ ProgramWellFormed 6 [.seti 1 0 1] := by decide
theorem smoke_program_empty_refused : ¬ ProgramWellFormed 0 [] := by decide
theorem smoke_program_instruction_refused : ¬ ProgramWellFormed 0 [.seti 1 0 6] := by decide
theorem smoke_program : ProgramWellFormed 0 [.seti 5 0 1] := by decide

/-! ## Decoding: one word per opcode, from the encoding of R30 and the numbers of R34 -/

theorem test_decode_addr : decode 0x00000003_00000002_00000001_00000000 = .addr 1 2 3 := by decide
theorem test_decode_addi : decode 0x00000001_FFFFFFFF_00000002_00000001 = .addi 2 (-1) 1 := by decide
theorem test_decode_mulr : decode 0x00000003_00000002_00000001_00000002 = .mulr 1 2 3 := by decide
theorem test_decode_muli : decode 0x00000003_00008000_00000001_00000003 = .muli 1 32768 3 := by decide
theorem test_decode_banr : decode 0x00000003_00000002_00000001_00000004 = .banr 1 2 3 := by decide
theorem test_decode_bani : decode 0x00000004_00FFFFFF_00000003_00000005 = .bani 3 16777215 4 := by decide
theorem test_decode_borr : decode 0x00000000_00000001_00000003_00000006 = .borr 3 1 0 := by decide
theorem test_decode_bori : decode 0x00000001_00010000_00000002_00000007 = .bori 2 65536 1 := by decide
theorem test_decode_setr : decode 0x00000002_00000063_00000001_00000008 = .setr 1 99 2 := by decide
theorem test_decode_seti : decode 0x00000001_00000000_00000005_00000009 = .seti 5 0 1 := by decide
theorem test_decode_gtir : decode 0x00000004_00000003_00000000_0000000A = .gtir 0 3 4 := by decide
theorem test_decode_gtri : decode 0x00000003_00000100_00000002_0000000B = .gtri 2 256 3 := by decide
theorem test_decode_gtrr : decode 0x00000005_00000002_00000001_0000000C = .gtrr 1 2 5 := by decide
theorem test_decode_eqir : decode 0x00000001_00000000_00000004_0000000D = .eqir 4 0 1 := by decide
theorem test_decode_eqri : decode 0x00000007_FFFFFFFF_00000000_0000000E = .eqri 0 (-1) 7 := by decide
theorem test_decode_eqrr : decode 0x00000003_00000001_00000002_0000000F = .eqrr 2 1 3 := by decide

/-- R32: the reserved bits are ignored. -/
theorem test_decode_reserved_ignored :
    decode 0x00000001_00000000_00000005_FFFFFFF9 = .seti 5 0 1 := by decide

/-- R30: the assembler's word of `seti 5 0 1`. -/
theorem test_encode_seti : encode (.seti 5 0 1) = 0x00000001_00000000_00000005_00000009 := by decide

/-- R23: slot 0 first, each slot little-endian. -/
theorem test_wordBytes :
    wordBytes 0x0F0E0D0C_0B0A0908_07060504_03020100 =
      [0, 1, 2, 3, 4, 5, 6, 7, 8, 9, 10, 11, 12, 13, 14, 15] := by decide

/-- Fifteen bytes are no word. -/
theorem test_truncated_word : decodeBytes (List.replicate 15 0) = .error .truncatedWord := by rfl

/-! ## Vectors of spec/95_test_vectors.md section 2: one STEP, ipsel = 5, pc = 0, N = 1 -/

/-- The machine before a vector: the word, and the registers of its start column. -/
def vector (w : InstrWord) (regs : Regs) : State where
  regs := regs
  pc := 0
  ipsel := 5
  n := 1
  prog := [(0, w)]
  faulted := false
  sres := .none

/-- What the vectors show of the state after one STEP. -/
def after (s : State) : Option (Regs × Word × StepResult × Bool) :=
  match step s with
  | .next t => some (t.regs, t.pc, t.sres, t.faulted)
  | _ => none

/-- T2: `addr 1 2 3`. -/
theorem test_addr_T2 :
    after (vector 0x00000003_00000002_00000001_00000000
      #v[0, 2147483647, 1, 0, 0, 0]) = some (#v[0, 2147483647, 1, -2147483648, 0, 1], 1, .cont, false) := by decide

/-- T8: `addi 1 -1 1`. -/
theorem test_addi_T8 :
    after (vector 0x00000001_FFFFFFFF_00000001_00000001
      #v[0, -2147483648, 0, 0, 0, 0]) = some (#v[0, 2147483647, 0, 0, 0, 1], 1, .cont, false) := by decide

/-- T9: `addi 5 2 5`. -/
theorem test_addi_T9 :
    after (vector 0x00000005_00000002_00000005_00000001
      #v[0, 0, 0, 0, 0, 0]) = some (#v[0, 0, 0, 0, 0, 3], 3, .cont, false) := by decide

/-- T12: `mulr 1 1 2`. -/
theorem test_mulr_T12 :
    after (vector 0x00000002_00000001_00000001_00000002
      #v[0, 46341, 0, 0, 0, 0]) = some (#v[0, 46341, -2147479015, 0, 0, 1], 1, .cont, false) := by decide

/-- T13: `mulr 1 2 3`. -/
theorem test_mulr_T13 :
    after (vector 0x00000003_00000002_00000001_00000002
      #v[0, -2147483648, -1, 0, 0, 0]) = some (#v[0, -2147483648, -1, -2147483648, 0, 1], 1, .cont, false) := by decide

/-- T17: `muli 1 65899 1`. -/
theorem test_muli_T17 :
    after (vector 0x00000001_0001016B_00000001_00000003
      #v[0, 16777215, 0, 0, 0, 0]) = some (#v[0, 1795096213, 0, 0, 0, 1], 1, .cont, false) := by decide

/-- T16: `muli 1 32768 3`. -/
theorem test_muli_T16 :
    after (vector 0x00000003_00008000_00000001_00000003
      #v[0, 65536, 0, 0, 0, 0]) = some (#v[0, 65536, 0, -2147483648, 0, 1], 1, .cont, false) := by decide

/-- T21: `banr 1 2 3`. -/
theorem test_banr_T21 :
    after (vector 0x00000003_00000002_00000001_00000004
      #v[0, -2, -3, 0, 0, 0]) = some (#v[0, -2, -3, -4, 0, 1], 1, .cont, false) := by decide

/-- T20: `banr 1 2 3`. -/
theorem test_banr_T20 :
    after (vector 0x00000003_00000002_00000001_00000004
      #v[0, -1, 5, 0, 0, 0]) = some (#v[0, -1, 5, 5, 0, 1], 1, .cont, false) := by decide

/-- T23: `bani 3 16777215 3`. -/
theorem test_bani_T23 :
    after (vector 0x00000003_00FFFFFF_00000003_00000005
      #v[0, 0, 0, -2, 0, 0]) = some (#v[0, 0, 0, 16777214, 0, 1], 1, .cont, false) := by decide

/-- T24: `bani 1 255 2`. -/
theorem test_bani_T24 :
    after (vector 0x00000002_000000FF_00000001_00000005
      #v[0, -256, 0, 0, 0, 0]) = some (#v[0, -256, 0, 0, 0, 1], 1, .cont, false) := by decide

/-- T26: `borr 3 1 0`. -/
theorem test_borr_T26 :
    after (vector 0x00000000_00000001_00000003_00000006
      #v[0, 65536, 0, -2147483648, 0, 0]) = some (#v[-2147418112, 65536, 0, -2147483648, 0, 1], 1, .cont, false) := by decide

/-- T27: `borr 1 2 3`. -/
theorem test_borr_T27 :
    after (vector 0x00000003_00000002_00000001_00000006
      #v[0, 5, -1, 0, 0, 0]) = some (#v[0, 5, -1, -1, 0, 1], 1, .cont, false) := by decide

/-- T30: `bori 1 1 2`. -/
theorem test_bori_T30 :
    after (vector 0x00000002_00000001_00000001_00000007
      #v[0, -2147483648, 0, 0, 0, 0]) = some (#v[0, -2147483648, -2147483647, 0, 0, 1], 1, .cont, false) := by decide

/-- T29: `bori 2 65536 1`. -/
theorem test_bori_T29 :
    after (vector 0x00000001_00010000_00000002_00000007
      #v[0, 0, 0, 0, 0, 0]) = some (#v[0, 65536, 0, 0, 0, 1], 1, .cont, false) := by decide

/-- T33: `setr 1 99 2`. -/
theorem test_setr_T33 :
    after (vector 0x00000002_00000063_00000001_00000008
      #v[0, -5, 0, 0, 0, 0]) = some (#v[0, -5, -5, 0, 0, 1], 1, .cont, false) := by decide

/-- T35: `setr 1 0 5`. -/
theorem test_setr_T35 :
    after (vector 0x00000005_00000000_00000001_00000008
      #v[0, 9, 0, 0, 0, 0]) = some (#v[0, 9, 0, 0, 0, 10], 10, .cont, false) := by decide

/-- T38: `seti 2147483647 0 5`. -/
theorem test_seti_T38 :
    after (vector 0x00000005_00000000_7FFFFFFF_00000009
      #v[0, 0, 0, 0, 0, 0]) = some (#v[0, 0, 0, 0, 0, -2147483648], -2147483648, .cont, false) := by decide

/-- T39: `seti 9 -7 2`. -/
theorem test_seti_T39 :
    after (vector 0x00000002_FFFFFFF9_00000009_00000009
      #v[0, 0, 0, 0, 0, 0]) = some (#v[0, 0, 9, 0, 0, 1], 1, .cont, false) := by decide

/-- T40: `gtir 0 3 4`. -/
theorem test_gtir_T40 :
    after (vector 0x00000004_00000003_00000000_0000000A
      #v[0, 0, 0, -2147483648, 0, 0]) = some (#v[0, 0, 0, -2147483648, 1, 1], 1, .cont, false) := by decide

/-- T41: `gtir 5 1 2`. -/
theorem test_gtir_T41 :
    after (vector 0x00000002_00000001_00000005_0000000A
      #v[0, 5, 0, 0, 0, 0]) = some (#v[0, 5, 0, 0, 0, 1], 1, .cont, false) := by decide

/-- T44: `gtri 2 256 3`. -/
theorem test_gtri_T44 :
    after (vector 0x00000003_00000100_00000002_0000000B
      #v[0, 0, 257, 0, 0, 0]) = some (#v[0, 0, 257, 1, 0, 1], 1, .cont, false) := by decide

/-- T46: `gtri 1 0 2`. -/
theorem test_gtri_T46 :
    after (vector 0x00000002_00000000_00000001_0000000B
      #v[0, -1, 0, 0, 0, 0]) = some (#v[0, -1, 0, 0, 0, 1], 1, .cont, false) := by decide

/-- T47: `gtrr 1 2 5`. -/
theorem test_gtrr_T47 :
    after (vector 0x00000005_00000002_00000001_0000000C
      #v[0, 7, 3, 0, 0, 0]) = some (#v[0, 7, 3, 0, 0, 2], 2, .cont, false) := by decide

/-- T49: `gtrr 1 2 3`. -/
theorem test_gtrr_T49 :
    after (vector 0x00000003_00000002_00000001_0000000C
      #v[0, -2147483648, 2147483647, 0, 0, 0]) = some (#v[0, -2147483648, 2147483647, 0, 0, 1], 1, .cont, false) := by decide

/-- T53: `eqir -1 1 2`. -/
theorem test_eqir_T53 :
    after (vector 0x00000002_00000001_FFFFFFFF_0000000D
      #v[0, -1, 0, 0, 0, 0]) = some (#v[0, -1, 1, 0, 0, 1], 1, .cont, false) := by decide

/-- T52: `eqir 4 0 1`. -/
theorem test_eqir_T52 :
    after (vector 0x00000001_00000000_00000004_0000000D
      #v[5, 0, 0, 0, 0, 0]) = some (#v[5, 0, 0, 0, 0, 1], 1, .cont, false) := by decide

/-- T54: `eqri 3 123 3`. -/
theorem test_eqri_T54 :
    after (vector 0x00000003_0000007B_00000003_0000000E
      #v[0, 0, 0, 123, 0, 0]) = some (#v[0, 0, 0, 1, 0, 1], 1, .cont, false) := by decide

/-- T55: `eqri 3 123 3`. -/
theorem test_eqri_T55 :
    after (vector 0x00000003_0000007B_00000003_0000000E
      #v[0, 0, 0, 456, 0, 0]) = some (#v[0, 0, 0, 0, 0, 1], 1, .cont, false) := by decide

/-- T58: `eqrr 2 1 3`. -/
theorem test_eqrr_T58 :
    after (vector 0x00000003_00000001_00000002_0000000F
      #v[0, 4, 3, 0, 0, 0]) = some (#v[0, 4, 3, 0, 0, 1], 1, .cont, false) := by decide

/-- T59: `eqrr 1 1 1`. -/
theorem test_eqrr_T59 :
    after (vector 0x00000001_00000001_00000001_0000000F
      #v[0, -8, 0, 0, 0, 0]) = some (#v[0, 1, 0, 0, 0, 1], 1, .cont, false) := by decide

/-- T60: `addr 6 0 1`. -/
theorem test_addr_T60 :
    after (vector 0x00000001_00000000_00000006_00000000
      #v[0, 0, 0, 0, 0, 0]) = some (#v[0, 0, 0, 0, 0, 0], 0, .fault, true) := by decide


/-! ## Sequencer and halt vectors -/

/-- The machine with a binding, a pc and one word. -/
def machine (ip pc : Word) (regs : Regs) (w : InstrWord) : State :=
  { vector w regs with ipsel := ip, pc := pc }

/-- S1 and S6: pc = N halts, whatever the binding. -/
theorem test_halt_S6 :
    after (machine 6 1 #v[0, 0, 0, 0, 0, 0] 0x00000001_00000000_00000001_00000009) =
      some (#v[0, 0, 0, 0, 0, 0], 1, .halt, false) := by decide

/-- S2: a negative pc halts. -/
theorem test_halt_S2 :
    after (machine 0 (-1) #v[0, 0, 0, 0, 0, 0] 0x00000001_00000000_00000001_00000009) =
      some (#v[0, 0, 0, 0, 0, 0], -1, .halt, false) := by decide

/-- S3: after INIT the machine halts. -/
theorem test_halt_S3 : after State.reset = some (#v[0, 0, 0, 0, 0, 0], 0, .halt, false) := by decide

/-- S4: a faulted machine stays faulted. -/
theorem test_fault_S4 :
    after { vector 0x00000001_00000000_00000001_00000009 #v[0, 0, 0, 0, 0, 0] with faulted := true } =
      some (#v[0, 0, 0, 0, 0, 0], 0, .fault, true) := by decide

/-- S5: an illegal binding faults. -/
theorem test_fault_S5 :
    after (machine 6 0 #v[0, 0, 0, 0, 0, 0] 0x00000001_00000000_00000001_00000009) =
      some (#v[0, 0, 0, 0, 0, 0], 0, .fault, true) := by decide

/-- S9: the increment of the IP-sync mux wraps. -/
theorem test_wrap_S9 :
    after (machine 0 0 #v[2147483647, 0, 0, 0, 0, 0] 0x00000001_00000000_00000000_00000009) =
      some (#v[-2147483648, 0, 0, 0, 0, 0], -2147483648, .cont, false) := by decide

/-- P6: the first STEP after the re-LOAD with ip = 3 takes its next pc from x[3] = 0. -/
theorem test_reload_P6 :
    after { machine 3 1 #v[1, 0, 7, 0, 0, 0] 0 with
        n := 3
        prog := [(0, 0x00000002_00000000_00000007_00000009),
          (1, 0x00000002_00000001_00000002_00000001),
          (2, 0x00000005_00000000_00000000_00000009)] } =
      some (#v[1, 0, 8, 1, 0, 0], 1, .cont, false) := by decide

/-- V1: the assembly text of the document's minimal program, with its final newline. -/
theorem test_assemble_V1 :
    assemble "#ip 0\nseti 5 0 1\n".toList =
      .ok (.load 0 [0x00000001_00000000_00000005_00000009]) := by decide

/-- V5: an unknown mnemonic is rejected. -/
theorem test_assemble_V5 :
    assemble "#ip 0\naddx 1 2 3".toList = .error .unknownMnemonic := by decide

/-- R39: a number above 2^31 - 1 is rejected. -/
theorem test_assemble_too_large :
    assemble "#ip 0\nseti 2147483648 0 1".toList = .error .numberTooLarge := by decide

/-- The host's placement runs the word as the first instruction after reset. -/
theorem test_placed_word_runs :
    after (State.reset.withFetchWord 8 9) = some (#v[1, 0, 0, 0, 0, 0], 1, .cont, false) := by decide

/-! ## Witnesses: a state and operands that meet the hypotheses of each obligation -/

/-- A running machine: x[k] = 10 + k but x[5] = pc = 0, ipsel = 5, one instruction `seti 5 0 1`. -/
def demo : State :=
  vector 0x00000001_00000000_00000005_00000009 #v[10, 11, 12, 13, 14, 0]

/-- `demo` with the binding 6. -/
def demoBadIp : State := { demo with ipsel := 6 }

/-- `demo` with the instruction `seti 5 0 6`. -/
def demoBadWord : State := { demo with prog := [(0, 0x00000006_00000000_00000005_00000009)] }

/-- Both ends of the register range as sources, the ip register as the destination. -/
theorem executes_RR : Executes demo .R .R 0 5 5 5 5 10 0 :=
  ⟨by decide, by decide, ⟨0, by decide, by decide⟩, ⟨5, by decide, by decide⟩⟩
theorem executes_RI : Executes demo .R .I 4 99 0 0 5 14 99 :=
  ⟨by decide, by decide, ⟨4, by decide, by decide⟩, by unfold Reads; decide⟩
theorem executes_IR : Executes demo .I .R (-1) 4 0 0 5 (-1) 14 :=
  ⟨by decide, by decide, by unfold Reads; decide, ⟨4, by decide, by decide⟩⟩
theorem executes_RX : Executes demo .R .X 4 99 0 0 5 14 7 :=
  ⟨by decide, by decide, ⟨4, by decide, by decide⟩, trivial⟩
theorem executes_IX : Executes demo .I .X (-1) 99 5 5 5 (-1) 7 :=
  ⟨by decide, by decide, by unfold Reads; decide, trivial⟩

/-- Each way an index is bad, at the ends of the range: ipsel = 6, C = -1, A = 6, B = -1. -/
theorem badIndex_RR : BadIndex demoBadIp .R .R 0 0 0 ∧ BadIndex demo .R .R 0 0 (-1) ∧
    BadIndex demo .R .R 6 0 0 ∧ BadIndex demo .R .R 0 (-1) 0 :=
  ⟨.inl (by decide), .inr (.inl (by decide)), .inr (.inr (.inl ⟨rfl, by decide⟩)),
    .inr (.inr (.inr ⟨rfl, by decide⟩))⟩
theorem badIndex_RI : BadIndex demoBadIp .R .I 0 0 0 ∧ BadIndex demo .R .I 0 0 6 ∧
    BadIndex demo .R .I (-1) 0 0 :=
  ⟨.inl (by decide), .inr (.inl (by decide)), .inr (.inr (.inl ⟨rfl, by decide⟩))⟩
theorem badIndex_IR : BadIndex demoBadIp .I .R 0 0 0 ∧ BadIndex demo .I .R 0 0 6 ∧
    BadIndex demo .I .R 9 6 1 :=
  ⟨.inl (by decide), .inr (.inl (by decide)), .inr (.inr (.inr ⟨rfl, by decide⟩))⟩
theorem badIndex_RX : BadIndex demoBadIp .R .X 0 0 0 ∧ BadIndex demo .R .X 0 0 6 ∧
    BadIndex demo .R .X 6 0 0 :=
  ⟨.inl (by decide), .inr (.inl (by decide)), .inr (.inr (.inl ⟨rfl, by decide⟩))⟩
theorem badIndex_IX : BadIndex demoBadIp .I .X 0 0 0 ∧ BadIndex demo .I .X 0 0 6 :=
  ⟨.inl (by decide), .inr (.inl (by decide))⟩

theorem witness_AddrAddsRegisters :
    (0x00000001_00000002_00000003_00000000 : InstrWord).toNat % 16 = 0 ∧
      Executes demo .R .R 0 5 5 5 5 10 0 ∧ BadIndex demo .R .R 6 0 0 :=
  ⟨by decide, executes_RR, badIndex_RR.2.2.1⟩

theorem witness_AddiAddsImmediate :
    (0x00000001_00000002_00000003_00000001 : InstrWord).toNat % 16 = 1 ∧
      Executes demo .R .I 4 99 0 0 5 14 99 ∧ BadIndex demo .R .I (-1) 0 0 :=
  ⟨by decide, executes_RI, badIndex_RI.2.2⟩

theorem witness_MulrMultipliesRegisters :
    (0x00000001_00000002_00000003_00000002 : InstrWord).toNat % 16 = 2 ∧
      Executes demo .R .R 0 5 5 5 5 10 0 ∧ BadIndex demo .R .R 6 0 0 :=
  ⟨by decide, executes_RR, badIndex_RR.2.2.1⟩

theorem witness_MuliMultipliesByImmediate :
    (0x00000001_00000002_00000003_00000003 : InstrWord).toNat % 16 = 3 ∧
      Executes demo .R .I 4 99 0 0 5 14 99 ∧ BadIndex demo .R .I (-1) 0 0 :=
  ⟨by decide, executes_RI, badIndex_RI.2.2⟩

theorem witness_BanrAndsRegisters :
    (0x00000001_00000002_00000003_00000004 : InstrWord).toNat % 16 = 4 ∧
      Executes demo .R .R 0 5 5 5 5 10 0 ∧ BadIndex demo .R .R 6 0 0 :=
  ⟨by decide, executes_RR, badIndex_RR.2.2.1⟩

theorem witness_BaniAndsImmediate :
    (0x00000001_00000002_00000003_00000005 : InstrWord).toNat % 16 = 5 ∧
      Executes demo .R .I 4 99 0 0 5 14 99 ∧ BadIndex demo .R .I (-1) 0 0 :=
  ⟨by decide, executes_RI, badIndex_RI.2.2⟩

theorem witness_BorrOrsRegisters :
    (0x00000001_00000002_00000003_00000006 : InstrWord).toNat % 16 = 6 ∧
      Executes demo .R .R 0 5 5 5 5 10 0 ∧ BadIndex demo .R .R 6 0 0 :=
  ⟨by decide, executes_RR, badIndex_RR.2.2.1⟩

theorem witness_BoriOrsImmediate :
    (0x00000001_00000002_00000003_00000007 : InstrWord).toNat % 16 = 7 ∧
      Executes demo .R .I 4 99 0 0 5 14 99 ∧ BadIndex demo .R .I (-1) 0 0 :=
  ⟨by decide, executes_RI, badIndex_RI.2.2⟩

theorem witness_SetrCopiesRegister :
    (0x00000001_00000002_00000003_00000008 : InstrWord).toNat % 16 = 8 ∧
      Executes demo .R .X 4 99 0 0 5 14 7 ∧ BadIndex demo .R .X 6 0 0 :=
  ⟨by decide, executes_RX, badIndex_RX.2.2⟩

theorem witness_SetiLoadsImmediate :
    (0x00000001_00000002_00000003_00000009 : InstrWord).toNat % 16 = 9 ∧
      Executes demo .I .X (-1) 99 5 5 5 (-1) 7 ∧ BadIndex demo .I .X 0 0 6 :=
  ⟨by decide, executes_IX, badIndex_IX.2⟩

theorem witness_GtirComparesImmediateWithRegister :
    (0x00000001_00000002_00000003_0000000A : InstrWord).toNat % 16 = 10 ∧
      Executes demo .I .R (-1) 4 0 0 5 (-1) 14 ∧ BadIndex demo .I .R 9 6 1 :=
  ⟨by decide, executes_IR, badIndex_IR.2.2⟩

theorem witness_GtriComparesRegisterWithImmediate :
    (0x00000001_00000002_00000003_0000000B : InstrWord).toNat % 16 = 11 ∧
      Executes demo .R .I 4 99 0 0 5 14 99 ∧ BadIndex demo .R .I (-1) 0 0 :=
  ⟨by decide, executes_RI, badIndex_RI.2.2⟩

theorem witness_GtrrComparesRegisters :
    (0x00000001_00000002_00000003_0000000C : InstrWord).toNat % 16 = 12 ∧
      Executes demo .R .R 0 5 5 5 5 10 0 ∧ BadIndex demo .R .R 6 0 0 :=
  ⟨by decide, executes_RR, badIndex_RR.2.2.1⟩

theorem witness_EqirTestsImmediateAgainstRegister :
    (0x00000001_00000002_00000003_0000000D : InstrWord).toNat % 16 = 13 ∧
      Executes demo .I .R (-1) 4 0 0 5 (-1) 14 ∧ BadIndex demo .I .R 9 6 1 :=
  ⟨by decide, executes_IR, badIndex_IR.2.2⟩

theorem witness_EqriTestsRegisterAgainstImmediate :
    (0x00000001_00000002_00000003_0000000E : InstrWord).toNat % 16 = 14 ∧
      Executes demo .R .I 4 99 0 0 5 14 99 ∧ BadIndex demo .R .I (-1) 0 0 :=
  ⟨by decide, executes_RI, badIndex_RI.2.2⟩

theorem witness_EqrrTestsRegisters :
    (0x00000001_00000002_00000003_0000000F : InstrWord).toNat % 16 = 15 ∧
      Executes demo .R .R 0 5 5 5 5 10 0 ∧ BadIndex demo .R .R 6 0 0 :=
  ⟨by decide, executes_RR, badIndex_RR.2.2.1⟩

theorem witness_AndOrActBitByBit : 31 < 32 := by decide

theorem witness_EncodeOfDecodeClearsReservedBits : 31 < 128 ∧ 127 < 128 := by decide

/-- Two words that differ in every reserved bit and nowhere else. -/
theorem witness_ReservedBitsAreIgnored : ∀ k, k < 4 ∨ (32 ≤ k ∧ k < 128) →
    (0x00000001_00000002_00000003_FFFFFFF4 : InstrWord).getLsbD k =
      (0x00000001_00000002_00000003_00000004 : InstrWord).getLsbD k := by
  have h : ∀ k : Fin 128, k.val < 4 ∨ 32 ≤ k.val →
      (0x00000001_00000002_00000003_FFFFFFF4 : InstrWord).getLsbD k =
        (0x00000001_00000002_00000003_00000004 : InstrWord).getLsbD k := by decide
  intro k hk
  exact h ⟨k, by omega⟩ (by simp only; omega)

theorem witness_ByteImageRoundTrip : 3 < 4 := by decide

theorem demo_running : Running demo := by decide

theorem demoBadWord_bad : BadIndexOf (current demoBadWord) demoBadWord := .inr (.inl (by decide))

theorem demo_good : ¬ BadIndexOf (current demo) demo := by
  unfold BadIndexOf BadIndex
  decide

theorem witness_StepRunsDecodedInstruction :
    Running demo ∧ decode (demo.fetchInstr demo.pc.toInt.toNat) = .seti 5 0 1 ∧
      demo.prog.read 0 = some 0x00000001_00000000_00000005_00000009 := by decide

/-- Both ends of the program: pc = -1 and pc = N. -/
theorem witness_HaltCheckChangesNothing :
    Halted { demo with pc := -1 } ∧ Halted { demo with pc := 1 } := by decide

theorem witness_BadIndexRaisesInvalidProgram :
    (Running demoBadWord ∧ BadIndexOf (current demoBadWord) demoBadWord) ∧
      (Running demo ∧ ¬ BadIndexOf (current demo) demo) ∧
      ¬ InRange (Instr.seti 5 0 6).opC.toInt ∧ ¬ InRange demoBadIp.ipsel.toInt ∧
      command .init (raised demo) = .next (raised demo).init :=
  ⟨⟨by decide, demoBadWord_bad⟩, ⟨demo_running, demo_good⟩, by decide, by decide, rfl⟩

theorem witness_StepOutcomePriority :
    (raised demo).faulted = true ∧ Halted { demo with pc := 1 } ∧
      (Running demoBadWord ∧ BadIndexOf (current demoBadWord) demoBadWord) ∧
      (Running demo ∧ ¬ BadIndexOf (current demo) demo) :=
  ⟨rfl, by decide, ⟨by decide, demoBadWord_bad⟩, ⟨demo_running, demo_good⟩⟩

/-- `demo` after its STEP: x[1] = 5, pc = x[5] = 1. -/
def demoAfter : State :=
  { demo with regs := #v[10, 5, 12, 13, 14, 1], pc := 1, sres := .cont }

theorem demo_step : step demo = .next demoAfter := by rfl

theorem witness_ContinueLeavesIpRegisterEqualPc :
    step demo = .next demoAfter ∧ demoAfter.sres = .cont := ⟨demo_step, rfl⟩

/-- A machine right after power-on and a LOAD of one instruction, under the binding 5. -/
def booted : State := State.reset.load 5 [0x00000001_00000000_00000005_00000009]

theorem one_fits (w : InstrWord) : [w].length ≤ Config.pmax := pmax_bounds.1

theorem reset_storeInv : State.reset.StoreInv :=
  ⟨reset_prog_wf, nofun, Nat.zero_le _, nofun⟩

theorem demo_synced : demo.Synced := by unfold State.Synced; decide

theorem witness_StepKeepsInvariants :
    booted.StoreInv ∧ booted.FaultShown ∧ booted.Synced ∧
      ∃ t, step booted = .next t ∧ t.sres = .cont :=
  ⟨load_storeInv reset_storeInv (one_fits _), by unfold State.FaultShown; decide,
    by unfold State.Synced; decide, _, rfl, rfl⟩

theorem booted_reachable : Reachable booted :=
  .next (.load 5 [0x00000001_00000000_00000005_00000009]) .reset (one_fits _) rfl

/-- The first state and a LOAD of one instruction, which always fits. -/
theorem witness_CommandsKeepStoreAndFaultInvariants :
    State.reset.StoreInv ∧ State.reset.FaultShown ∧
      (Command.load 5 [0x00000001_00000000_00000005_00000009]).Presentable ∧
      command (.load 5 [0x00000001_00000000_00000005_00000009]) State.reset = .next booted :=
  ⟨reset_storeInv, by unfold State.FaultShown; decide, one_fits _, rfl⟩

theorem witness_ReachableStatesAreConsistent : Reachable booted ∧ Running booted :=
  ⟨booted_reachable, by decide⟩

/-- `gtrr 5 0 0`: one source is the ip register, the other, which is the destination too, is not. -/
theorem witness_IpRegisterReadsOwnIndex_source :
    demo.Synced ∧ demo.ipsel.toInt = ((5 : Fin 6).val : Int) ∧
      (Instr.gtrr 5 0 0).opC.toInt = ((0 : Fin 6).val : Int) ∧
      ReadsOwnIndex demo .R 5 0 ∧ ReadsOwnIndex demo .R 0 10 ∧
      ReadsOwnIndex demo .I (-1) (-1) ∧ ReadsOwnIndex demo .X 99 7 :=
  ⟨demo_synced, by decide, by decide, .inl (by decide), .inr ⟨by decide, 0, by decide, by decide⟩,
    by unfold ReadsOwnIndex; decide, trivial⟩

theorem witness_IpRegisterReadsOwnIndex :
    demo.Synced ∧ demo.ipsel.toInt = ((5 : Fin 6).val : Int) ∧
      (5 : Word).toInt = ((5 : Fin 6).val : Int) ∧ (0 : Word).toInt = ((0 : Fin 6).val : Int) ∧
      (0 : Fin 6) ≠ 5 :=
  ⟨demo_synced, by decide, by decide, by decide, by decide⟩

theorem witness_WritesToIpRegisterJump :
    demo.Synced ∧ demo.ipsel.toInt = ((5 : Fin 6).val : Int) ∧
      (5 : Word).toInt = ((5 : Fin 6).val : Int) ∧ (0 : Word).toInt = ((0 : Fin 6).val : Int) :=
  ⟨demo_synced, by decide, by decide, by decide⟩

theorem witness_OtherInstructionsContinueAtNextPc :
    demo.Synced ∧ exec (.seti 5 0 1) demo = .next demoAfter ∧ demoAfter.sres = .cont ∧
      (Instr.seti 5 0 1).opC.toInt ≠ demo.ipsel.toInt :=
  ⟨demo_synced, rfl, rfl, by decide⟩

/-- The mux at 2^31 - 1 both ways: `addi 0 2147483637 5` from x[0] = 10 writes it to the ip register,
and `seti 7 0 0` finds it there. -/
theorem witness_PcIncrementWrapsAndHalts_mux :
    (Executes demo .R .I 0 2147483637 5 5 5 10 2147483637 ∧
      muxValue demo 5 5 (aluInt .ADD 10 2147483637) = 2 ^ 31 - 1) ∧
    (Executes (demo.setX 5 2147483647) .I .X 7 0 0 0 5 7 0 ∧
      muxValue (demo.setX 5 2147483647) 0 5 (aluInt .PASS 7 0) = 2 ^ 31 - 1) ∧
    demo.faulted = false :=
  ⟨⟨⟨by decide, by decide, ⟨0, by decide, by decide⟩, by unfold Reads; decide⟩, by decide⟩,
    ⟨⟨by decide, by decide, by unfold Reads; decide, trivial⟩, by decide⟩, rfl⟩

/-- Both clauses: x[ipsel] = 2^31 - 1 with another destination, and the ip register as destination. -/
theorem witness_PcIncrementWrapsAndHalts :
    (let s := demo.setX 5 2147483647
     s.faulted = false ∧ s.ipsel.toInt = ((5 : Fin 6).val : Int) ∧ (s.x 5).toInt = 2 ^ 31 - 1 ∧
      (0 : Word).toInt = ((0 : Fin 6).val : Int)) ∧
    (5 : Word).toInt = ((5 : Fin 6).val : Int) := by decide

theorem witness_InstructionsWriteOnlyDestinationAndIpRegister :
    exec (.seti 5 0 1) demo = .next demoAfter ∧ ((0 : Fin 6).val : Int) ≠ (Instr.seti 5 0 1).opC.toInt ∧
      ((0 : Fin 6).val : Int) ≠ demo.ipsel.toInt :=
  ⟨rfl, by decide, by decide⟩

theorem witness_InitClearsEverythingButProgram :
    (raised demo).faulted = true ∧ command .init (raised demo) = .next (raised demo).init ∧
      (raised demo).init.faulted = false ∧ command .nop demo = .next demo :=
  ⟨rfl, rfl, rfl, rfl⟩

/-- The image's ends, an index past it, and the illegal binding on a running machine. -/
theorem witness_LoadReplacesProgramOnly :
    0 < [(9 : InstrWord)].length ∧ [(9 : InstrWord)].length ≤ 1 ∧ demo.faulted = false ∧
      ¬ InRange (6 : Word).toInt ∧ Running (demo.load 6 [9]) := by decide

theorem witness_FirstStepAfterLoadRunsNewProgram :
    0 < [(9 : InstrWord)].length ∧ demo.faulted = false ∧ demo.pc.toInt = ((0 : Nat) : Int) := by
  decide

theorem witness_FaultBitIsSticky :
    (Running demoBadWord ∧ BadIndexOf (current demoBadWord) demoBadWord) ∧
      command .step demoBadWord = .next (raised demoBadWord) ∧ demoBadWord.faulted = false ∧
      (raised demoBadWord).faulted = true :=
  ⟨⟨by decide, demoBadWord_bad⟩, rfl, rfl, rfl⟩

theorem witness_OnlyInitRecoversFromFault :
    (raised demo).faulted = true ∧ ∀ c ∈ [Command.load 0 [9], .step, .nop], c ≠ .init :=
  ⟨rfl, by decide⟩

theorem witness_HaltedIsTerminal :
    demo.faulted = false ∧ Halted { demo with pc := 1 } ∧ Halted { demo with pc := -1 } ∧
      ∀ c ∈ [Command.step, .nop, .step], c = .nop ∨ c = .step := by decide

theorem witness_BindingIsWrittenByLoadAndInitOnly :
    command (.load 6 []) demo = .next (demo.load 6 []) ∧ exec (.seti 5 0 1) demo = .next demoAfter ∧
      Running demoBadIp ∧ ¬ InRange demoBadIp.ipsel.toInt :=
  ⟨rfl, rfl, by decide, by decide⟩

theorem witness_LengthIsWrittenByLoadAndInitOnly :
    command (.load 6 []) demo = .next (demo.load 6 []) ∧ Halted { demo with pc := 1 } ∧
      Reachable booted :=
  ⟨rfl, by decide, booted_reachable⟩

theorem demo_safe : demo.Safe := ⟨rfl, by decide, by
  intro k hk
  obtain rfl : k = 0 := Nat.lt_one_iff.1 hk
  decide⟩

theorem witness_SafeMachineNeverFaults : demo.Safe ∧ Running demo := ⟨demo_safe, demo_running⟩

theorem witness_WellFormedProgramNeverFaults :
    ProgramWellFormed 5 [.seti 5 0 1, .addr 0 5 5] := by decide

/-- The greatest number that fits and the least that does not. -/
theorem witness_InstructionLineAssembles :
    mnemonics[(9 : Fin 16).val]? = some ['s', 'e', 't', 'i'] ∧
      digitsValue [2, 1, 4, 7, 4, 8, 3, 6, 4, 7] < 2 ^ 31 ∧
      ¬ digitsValue [2, 1, 4, 7, 4, 8, 3, 6, 4, 8] < 2 ^ 31 := ⟨rfl, by decide, by decide⟩

end Sys2Proof.Tests
end

namespace Sys2Proof.Machine

section
/-! The run status, a STEP and the index check in the vocabulary of the statements (R16, R43, R45). -/

open Sys2Proof.Reference Sys2Proof.Claims

theorem inProgram_eq_false_iff {s : State} :
    s.inProgram = false ↔ s.pc.toInt < 0 ∨ (s.n : Int) ≤ s.pc.toInt := by
  rw [← Bool.not_eq_true, inProgram_iff]
  omega

theorem running_iff {s : State} : Running s ↔ s.faulted = false ∧ s.inProgram = true := by
  rw [inProgram_iff]

theorem halted_iff {s : State} : Halted s ↔ s.faulted = false ∧ s.inProgram = false := by
  rw [inProgram_eq_false_iff]

theorem status_faulted_iff {s : State} : s.status = .faulted ↔ s.faulted = true := by
  cases hf : s.faulted <;> cases hp : s.inProgram <;> simp [State.status, hf, hp]

theorem status_running_iff {s : State} : s.status = .running ↔ Running s := by
  rw [running_iff]
  cases hf : s.faulted <;> cases hp : s.inProgram <;> simp [State.status, hf, hp]

theorem status_halted_iff {s : State} : s.status = .halted ↔ Halted s := by
  rw [halted_iff]
  cases hf : s.faulted <;> cases hp : s.inProgram <;> simp [State.status, hf, hp]

theorem step_eq_answerHalt {s : State} (h : Halted s) : step s = .next s.answerHalt := by
  obtain ⟨hf, hp⟩ := halted_iff.1 h
  exact step_of_halted hf hp

/-- On a pc that passes the halt check the two readings of its index agree (R44). -/
theorem step_eq_exec_current {s : State} (h : Running s) : step s = exec (current s) s := by
  obtain ⟨hf, hp⟩ := running_iff.1 h
  have hpc : s.pc.toInt.toNat = s.pc.toNat := by
    have := h.2.1
    rw [BitVec.toInt_eq_toNat_cond] at this ⊢
    split at this <;> omega
  rw [step_of_running hf hp, current, hpc]

/-- A STEP shows HALT exactly when it found the machine halted (R43, R50). -/
theorem step_sres_halt_iff {s t : State} (h : step s = .next t) : t.sres = .halt ↔ Halted s := by
  rw [halted_iff]
  rcases step_cases s with ⟨hf, e⟩ | ⟨hf, hp, e⟩ | ⟨hf, hp, e⟩ | ⟨hf, hp, d, p, res, -, e⟩ <;>
    (rw [e] at h; cases h; simp [*])

/-- A field fails to give data exactly when it is a register index out of range (R45, R48). -/
theorem fetch_ofMode_eq_none {s : State} {m : Mode} {field : Word} :
    (Operand.ofMode m field).fetch s = none ↔ m = .R ∧ ¬ InRange field.toInt := by
  cases m with
  | R => simpa [Operand.ofMode, Operand.fetch] using regIndex_eq_none
  | I => simp [Operand.ofMode, Operand.fetch]
  | X => simp [Operand.ofMode, Operand.fetch]

theorem exec_of_badIndexOf {i : Instr} {s : State} (h : BadIndexOf i s) :
    exec i s = .next s.raiseInvalidProgram := by
  rw [exec_eq_execute]
  apply execute_raises
  rw [fetch_ofMode_eq_none, fetch_ofMode_eq_none]
  rcases h with hip | hc | ha | hb
  · exact .inr (.inr (.inr hip))
  · exact .inr (.inr (.inl hc))
  · exact .inl ha
  · exact .inr (.inl hb)

theorem step_of_badIndexOf {s : State} (hr : Running s) (h : BadIndexOf (current s) s) :
    step s = .next s.raiseInvalidProgram := by
  rw [step_eq_exec_current hr, exec_of_badIndexOf h]

end

section
/-! What a command does to the fault bit and to the length, and runs of commands (R14 to R16). -/

open Sys2Proof.Claims

/-- Among the commands only a STEP sets the fault bit. -/
theorem eq_step_of_command_faults {c : Command} {s t : State} (h : command c s = .next t)
    (hs : s.faulted = false) (ht : t.faulted = true) : c = .step := by
  cases c with
  | step => rfl
  | nop => cases h; simp [hs] at ht
  | load ip seq => cases h; simp [hs] at ht
  | init => cases h; simp at ht

/-- From a faulted machine exactly INIT leads to a clear fault bit. -/
theorem command_clears_fault_iff {c : Command} {s t : State} (h : command c s = .next t)
    (hs : s.faulted = true) : t.faulted = false ↔ c = .init := by
  cases c with
  | step => rw [command_step, step_of_faulted hs] at h; cases h; simp [hs]
  | nop => cases h; simp [hs]
  | load ip seq => cases h; simp [hs]
  | init => cases h; simp

theorem runCommands_cons_of_next {c : Command} {s t : State} (cs : List Command)
    (h : command c s = .next t) : runCommands (c :: cs) s = runCommands cs t := by
  simp [runCommands, h]

/-- A halted machine stays halted, and unchanged but for `sres`, while only NOPs and STEPs are given;
each STEP leads to `answerHalt`, which is halted again. -/
theorem runCommands_of_halted (cs : List Command) {s : State} (h : Halted s)
    (hcs : ∀ c ∈ cs, c = .nop ∨ c = .step) :
    ∃ r, runCommands cs s = .next { s with sres := r } := by
  induction cs generalizing s with
  | nil => exact ⟨s.sres, rfl⟩
  | cons c cs ih =>
    obtain ⟨hc, hrest⟩ := List.forall_mem_cons.1 hcs
    rcases hc with rfl | rfl
    · rw [runCommands_cons_of_next cs (command_nop s)]
      exact ih h hrest
    · have hstep : command .step s = .next s.answerHalt := step_eq_answerHalt h
      have halted : Halted s.answerHalt := h
      rw [runCommands_cons_of_next cs hstep]
      exact ih halted hrest

/-- A command that can be given keeps N within PMAX. -/
theorem command_lengthFits {c : Command} {s t : State} (hc : c.Presentable)
    (h : command c s = .next t) (hs : s.n ≤ Config.pmax) : t.n ≤ Config.pmax := by
  cases c with
  | nop => cases h; exact hs
  | step =>
    obtain ⟨-, hn, -⟩ := step_frame h
    rwa [hn]
  | load ip seq => cases h; exact hc
  | init => cases h; exact Nat.zero_le _

theorem reachable_lengthFits {s : State} (h : Reachable s) : s.n ≤ Config.pmax := by
  induction h with
  | reset => exact Nat.zero_le _
  | next c _ hc h ih => exact command_lengthFits hc h ih

end

/-- Settles O45: a bad index makes a running machine raise the fault; which command sets and which
clears the bit is the two lemmas on `command`. -/
theorem faultBitIsSticky : Obligations.FaultBitIsSticky :=
  ⟨rfl, fun s hr hbad => ⟨s.raiseInvalidProgram, step_of_badIndexOf hr hbad, rfl⟩,
    fun _ _ _ h => ⟨eq_step_of_command_faults h, command_clears_fault_iff h⟩,
    fun _ h => step_of_faulted h⟩

/-- Settles O47: the status case by case, the HALT answer by `step_sres_halt_iff`, and terminality by
induction over the commands. -/
theorem haltedIsTerminal : Obligations.HaltedIsTerminal := by
  refine ⟨fun s => ⟨status_halted_iff, status_running_iff, status_faulted_iff⟩,
    fun s hf => ⟨?_, fun hpc => ?_⟩, fun cs s => runCommands_of_halted cs⟩
  · rintro ⟨t, hstep, hsres⟩
    exact ((step_sres_halt_iff hstep).1 hsres).2
  · exact ⟨s.answerHalt, step_eq_answerHalt ⟨hf, hpc⟩, rfl⟩

/-- Settles O49: the length after each of the four commands, the halt check, and the bound by
induction over the commands that lead to the state. -/
theorem lengthIsWrittenByLoadAndInitOnly : Obligations.LengthIsWrittenByLoadAndInitOnly := by
  refine ⟨rfl, fun c s t h => ?_, fun s => step_eq_answerHalt, fun s => reachable_lengthFits⟩
  cases c with
  | nop => cases h; rfl
  | step =>
    obtain ⟨-, hn, -⟩ := step_frame h
    exact hn
  | load ip seq => cases h; rfl
  | init => cases h; rfl

end Sys2Proof.Machine

namespace Sys2Proof

section
/-! A slot and its four bytes, a word and its four slots, taken apart and put together (R23, R30). -/

theorem slotOfBytes_extractLsb' (s : Word) :
    slotOfBytes (s.extractLsb' 0 8) (s.extractLsb' 8 8) (s.extractLsb' 16 8) (s.extractLsb' 24 8) =
      s := by
  unfold slotOfBytes
  rw [BitVec.extractLsb'_append_extractLsb'_eq_extractLsb' (show 24 = 16 + 8 from rfl),
    BitVec.extractLsb'_append_extractLsb'_eq_extractLsb' (show 16 = 8 + 8 from rfl),
    BitVec.extractLsb'_append_extractLsb'_eq_extractLsb' (show 8 = 0 + 8 from rfl)]
  exact BitVec.extractLsb'_eq_self

theorem wordOfSlots_wordSlot (w : InstrWord) :
    wordOfSlots (wordSlot w 0) (wordSlot w 1) (wordSlot w 2) (wordSlot w 3) = w := by
  unfold wordOfSlots wordSlot
  rw [BitVec.extractLsb'_append_extractLsb'_eq_extractLsb' (show 32 * 3 = 32 * 2 + 32 from rfl),
    BitVec.extractLsb'_append_extractLsb'_eq_extractLsb' (show 32 * 2 = 32 * 1 + 32 from rfl),
    BitVec.extractLsb'_append_extractLsb'_eq_extractLsb' (show 32 * 1 = 32 * 0 + 32 from rfl)]
  exact BitVec.extractLsb'_eq_self

theorem length_wordBytes (w : InstrWord) : (wordBytes w).length = 16 := rfl

theorem getElem?_slotBytes (s : Word) {byte : Nat} (h : byte < 4) :
    (slotBytes s)[byte]? = some (s.extractLsb' (8 * byte) 8) := by
  match byte, h with
  | 0, _ | 1, _ | 2, _ | 3, _ => rfl

/-- Slot `slot` of a word takes bytes 4·slot to 4·slot + 3 of its image. -/
theorem getElem?_wordBytes (w : InstrWord) {slot byte : Nat} (hs : slot < 4) (hb : byte < 4) :
    (wordBytes w)[4 * slot + byte]? = (slotBytes (wordSlot w slot))[byte]? := by
  match slot, hs with
  | 0, _ | 1, _ | 2, _ | 3, _ =>
    match byte, hb with
    | 0, _ | 1, _ | 2, _ | 3, _ => rfl

theorem extractLsb'_wordSlot (w : InstrWord) (slot : Nat) {byte : Nat} (hb : byte < 4) :
    (wordSlot w slot).extractLsb' (8 * byte) 8 = w.extractLsb' (32 * slot + 8 * byte) 8 := by
  ext i hi
  simp [wordSlot, show 8 * byte + i < 32 by omega, Nat.add_assoc]

/-- A word is read back from its image, with the bytes that follow it. -/
theorem wordOfBytes_wordBytes_append (w : InstrWord) (rest : List Byte) :
    wordOfBytes (wordBytes w ++ rest) = .ok (w, rest) := by
  simp [wordBytes, slotBytes, wordOfBytes, slotOfBytes_extractLsb', wordOfSlots_wordSlot]

end

/-- Settles O25: the read-back and the length are the lemmas above; a byte of the image is a byte of
its slot, and so eight bits of the word. -/
theorem byteImageRoundTrip : Obligations.ByteImageRoundTrip := by
  refine fun w rest => ⟨wordOfBytes_wordBytes_append w rest, length_wordBytes w, ?_⟩
  intro slot byte hs hb
  rw [getElem?_wordBytes w hs hb, getElem?_slotBytes _ hb, extractLsb'_wordSlot w slot hb]

end Sys2Proof

namespace Sys2Proof

section
/-! What the decoder takes from a word (R31 to R33): the opcode map keeps the opcode number and the
operands it is given, and two words with the same four fields decode alike. -/

@[simp] theorem opcode_instrOfFields (op : Fin 16) (a b c : Word) :
    (instrOfFields op a b c).opcode = BitVec.ofFin op := by
  fin_cases op <;> rfl

/-- The opcode map passes the operand fields on unchanged, whatever the opcode (R33). -/
theorem operands_instrOfFields (op : Fin 16) (a b c : Word) :
    (instrOfFields op a b c).opA = a ∧ (instrOfFields op a b c).opB = b ∧
      (instrOfFields op a b c).opC = c := by
  fin_cases op <;> exact ⟨rfl, rfl, rfl⟩

@[simp] theorem opcode_decode (w : InstrWord) : (decode w).opcode = opField w :=
  opcode_instrOfFields ..

@[simp] theorem opA_decode (w : InstrWord) : (decode w).opA = fieldA w :=
  (operands_instrOfFields ..).1

@[simp] theorem opB_decode (w : InstrWord) : (decode w).opB = fieldB w :=
  (operands_instrOfFields ..).2.1

@[simp] theorem opC_decode (w : InstrWord) : (decode w).opC = fieldC w :=
  (operands_instrOfFields ..).2.2

theorem opField_toNat (w : InstrWord) : (opField w).toNat = w.toNat % 16 := by
  simp [opField]

theorem decode_congr {w w' : InstrWord} (hop : opField w = opField w') (hA : fieldA w = fieldA w')
    (hB : fieldB w = fieldB w') (hC : fieldC w = fieldC w') : decode w = decode w' := by
  simp only [decode, hop, hA, hB, hC]

/-- A field is determined by the bits in its range. -/
theorem extractLsb'_congr {n : Nat} {w w' : BitVec n} {start len : Nat}
    (h : ∀ k, start ≤ k → k < start + len → w.getLsbD k = w'.getLsbD k) :
    w.extractLsb' start len = w'.extractLsb' start len := by
  ext i hi
  simpa using h (start + i) (by omega) (by omega)

theorem resField_encode (i : Instr) : resField (encode i) = 0 := resField_wordOfSlots ..

end

/-- Settles O22: none of the four fields that the decoder takes has a bit in 31:4, and the encoder's
slot 0 is zero there. -/
theorem reservedBitsAreIgnored : Obligations.ReservedBitsAreIgnored := by
  refine ⟨fun w w' h => ?_, resField_encode⟩
  have hop : opField w = opField w' := extractLsb'_congr fun k _ _ => h k (by omega)
  have hA : fieldA w = fieldA w' := extractLsb'_congr fun k _ _ => h k (by omega)
  have hB : fieldB w = fieldB w' := extractLsb'_congr fun k _ _ => h k (by omega)
  have hC : fieldC w = fieldC w' := extractLsb'_congr fun k _ _ => h k (by omega)
  exact decode_congr hop hA hB hC

/-- Settles O23: the opcode map keeps the number and the fields, for each of the sixteen opcodes. -/
theorem decodeReadsTheFields : Obligations.DecodeReadsTheFields := by
  intro w
  rw [opcode_decode, opA_decode, opB_decode, opC_decode]
  exact ⟨opField_toNat w, rfl, rfl, rfl⟩

end Sys2Proof

namespace Sys2Proof.Reference

/-! The spec's integers and the machine's words (00_scope.md section 4): `wrap32` is the signed
reading of a 32-bit result. -/

theorem wrap32_eq_bmod (v : Int) : wrap32 v = v.bmod (2 ^ 32) := by
  unfold wrap32
  rw [Int.bmod_def]
  split <;> omega

@[simp] theorem bits32_toInt (w : Word) : bits32 w.toInt = w := BitVec.ofInt_toInt

theorem toInt_add_eq_wrap32 (a b : Word) : (a + b).toInt = wrap32 (a.toInt + b.toInt) := by
  rw [wrap32_eq_bmod, BitVec.toInt_add]

theorem toInt_mul_eq_wrap32 (a b : Word) : (a * b).toInt = wrap32 (a.toInt * b.toInt) := by
  rw [wrap32_eq_bmod, BitVec.toInt_mul]

/-- The spec's register read and write, for an index in range, are those of the register file. -/
theorem xRead_eq_toInt (s : Machine.State) (k : Fin 6) :
    xRead s.regs (k.val : Int) = (s.x k).toInt := by
  simp [xRead, int32, Machine.State.x, List.getD_eq_getElem?_getD]

theorem xWrite_toInt (r : Machine.Regs) (k : Fin 6) (v : Word) :
    xWrite r (k.val : Int) v.toInt = r.set k v := by
  ext i hi
  simp [xWrite, Vector.getElem_setIfInBounds, Vector.getElem_set]

end Sys2Proof.Reference

namespace Sys2Proof.Machine

section
/-! The ALU and the next pc on integers, and the two ends of an executed instruction: which states
execute it, and the state it leaves (R42, R45 to R48). -/

open Sys2Proof.Reference Sys2Proof.Claims

theorem toInt_truthWord (b : Bool) : (truthWord b).toInt = if b then 1 else 0 := by
  cases b <;> rfl

/-- The ALU on words is the spec's ALU on integers (R56, R57, R64, R69, R72). -/
theorem toInt_alu (f : AluFn) (va vb : Word) :
    (alu f va vb).toInt = aluInt f va.toInt vb.toInt := by
  cases f with
  | ADD => exact toInt_add_eq_wrap32 va vb
  | MUL => exact toInt_mul_eq_wrap32 va vb
  | AND => simp [alu, aluInt, int32]
  | OR => simp [alu, aluInt, int32]
  | PASS => rfl
  | GT => simp [alu, aluInt, toInt_truthWord, signedGreater]
  | EQ => simp [alu, aluInt, toInt_truthWord, wordEqual, BitVec.toInt_inj]

theorem toInt_ipSync (s : State) (d p : Fin 6) (res : Word) :
    (s.ipSync d p res).toInt = muxValue s d p res.toInt := by
  unfold State.ipSync muxValue
  split <;> rfl

theorem toInt_nextPc (s : State) (d p : Fin 6) (res : Word) :
    (s.nextPc d p res).toInt = wrap32 (muxValue s d p res.toInt + 1) := by
  rw [State.nextPc, toInt_add_eq_wrap32, toInt_ipSync]
  rfl

/-- `retire` is the sync rule of R46 with its frame. -/
theorem retired_retire (s : State) (d p : Fin 6) (res : Word) :
    Retired s (s.retire d p res) d p res.toInt where
  pc := toInt_nextPc s d p res
  ipRegister := by simp [retire_x]
  destination hdp := by simp [retire_x, hdp]
  others k hd hp := by simp [retire_x, hd, hp]
  ipsel := retire_ipsel ..
  n := retire_n ..
  prog := retire_prog ..
  words k := by simp [State.fetchInstr]
  faulted := retire_faulted ..
  sres := rfl

/-- An operand that has data is fetched, with that data unless its field is unused. -/
theorem fetch_ofMode_of_reads {s : State} {m : Mode} {field : Word} {v : Int}
    (h : Reads s m field v) :
    ∃ w, (Operand.ofMode m field).fetch s = some w ∧ (m ≠ .X → w.toInt = v) := by
  cases m with
  | R =>
    obtain ⟨k, hk, rfl⟩ := h
    exact ⟨s.x k, by simp [Operand.ofMode, Operand.fetch, regIndex_eq_some.2 hk], fun _ => rfl⟩
  | I => exact ⟨field, rfl, fun _ => h.symm⟩
  | X => exact ⟨0, rfl, fun hX => absurd rfl hX⟩

/-- Operand A is always used (R35). -/
theorem amode_ne_unused (i : Instr) : i.control.amode ≠ .X :=
  have rows : ∀ op : Fin 16, decodeTable[op].amode ≠ .X := by decide
  rows i.opcode.toFin

/-- Only the assignments leave operand B unused, and their ALU function ignores it (R35, R69). -/
theorem alu_eq_pass_of_bmode_unused {i : Instr} (h : i.control.bmode = .X) :
    i.control.alu = .PASS :=
  have rows : ∀ op : Fin 16, decodeTable[op].bmode = .X → decodeTable[op].alu = .PASS := by decide
  rows i.opcode.toFin h

/-- An instruction whose indices are all in range retires its ALU function's result. -/
theorem exec_of_executes {i : Instr} {s : State} {d p : Fin 6} {va vb : Int}
    (h : Executes s i.control.amode i.control.bmode i.opA i.opB i.opC d p va vb) :
    ∃ res, exec i s = .next (s.retire d p res) ∧ res.toInt = aluInt i.control.alu va vb := by
  obtain ⟨hd, hp, hA, hB⟩ := h
  obtain ⟨wa, fetchA, ha⟩ := fetch_ofMode_of_reads hA
  obtain ⟨wb, fetchB, hb⟩ := fetch_ofMode_of_reads hB
  refine ⟨alu i.control.alu wa wb, ?_, ?_⟩
  · rw [exec_eq_execute, execute_retires fetchA fetchB hd hp]
  · rw [toInt_alu, ha (amode_ne_unused i)]
    by_cases hX : i.control.bmode = .X
    · rw [alu_eq_pass_of_bmode_unused hX]
      rfl
    · rw [hb hX]

/-- An operand that passes the index check has the data that R42 fetches for it, `v` being the data
of a field that is no register. -/
theorem reads_xRead {s : State} {m : Mode} {field : Word} {v : Int}
    (h : ¬ (m = .R ∧ ¬ InRange field.toInt)) (hv : m = .I → v = field.toInt) :
    Reads s m field (if m = .R then xRead s.regs field.toInt else v) := by
  cases m with
  | R =>
    obtain ⟨k, hk⟩ := indexOK_iff.1 (by simpa using h)
    exact ⟨k, hk, by rw [if_pos rfl, hk, xRead_eq_toInt]⟩
  | I => exact hv rfl
  | X => trivial

/-- When no index check fails the instruction executes, on the data that R42 fetches. -/
theorem executes_of_not_badIndexOf {i : Instr} {s : State} (h : ¬ BadIndexOf i s) :
    ∃ d p, Executes s i.control.amode i.control.bmode i.opA i.opB i.opC d p
      (if i.control.amode = .R then xRead s.regs i.opA.toInt else i.opA.toInt)
      (if i.control.bmode = .R then xRead s.regs i.opB.toInt
        else if i.control.bmode = .I then i.opB.toInt else 0) := by
  simp only [BadIndexOf, BadIndex, not_or] at h
  obtain ⟨hip, hc, ha, hb⟩ := h
  obtain ⟨p, hp⟩ := indexOK_iff.1 (not_not.1 hip)
  obtain ⟨d, hd⟩ := indexOK_iff.1 (not_not.1 hc)
  exact ⟨d, p, hd, hp, reads_xRead ha fun _ => rfl, reads_xRead hb fun hI => if_pos hI⟩

theorem step_of_not_badIndexOf {s : State} (hr : Running s) (h : ¬ BadIndexOf (current s) s) :
    ∃ d p res, step s = .next (s.retire d p res) := by
  obtain ⟨d, p, hx⟩ := executes_of_not_badIndexOf h
  obtain ⟨res, hexec, -⟩ := exec_of_executes hx
  exact ⟨d, p, res, (step_eq_exec_current hr).trans hexec⟩

theorem faulted_or_halted_or_running (s : State) : s.faulted = true ∨ Halted s ∨ Running s := by
  rw [halted_iff, running_iff]
  cases s.faulted <;> cases s.inProgram <;> simp

/-- One STEP does exactly one of four things, and the state before it says which (R83): `step_cases`
with the index check as the condition of its last two cases. -/
theorem step_outcome (s : State) :
    (s.faulted = true ∧ step s = .next s.answerFault) ∨
    (Halted s ∧ step s = .next s.answerHalt) ∨
    (Running s ∧ BadIndexOf (current s) s ∧ step s = .next s.raiseInvalidProgram) ∨
    (Running s ∧ ¬ BadIndexOf (current s) s ∧ ∃ d p res, step s = .next (s.retire d p res)) := by
  rcases faulted_or_halted_or_running s with hf | halted | running
  · exact .inl ⟨hf, step_of_faulted hf⟩
  · exact .inr (.inl ⟨halted, step_eq_answerHalt halted⟩)
  · by_cases bad : BadIndexOf (current s) s
    · exact .inr (.inr (.inl ⟨running, bad, step_of_badIndexOf running bad⟩))
    · exact .inr (.inr (.inr ⟨running, bad, step_of_not_badIndexOf running bad⟩))

theorem not_running_of_halted {s : State} (h : Halted s) : ¬ Running s := by
  rw [halted_iff] at h
  simp [running_iff, h]

/-- A STEP shows CONTINUE exactly when it executed an instruction (R42, R50). -/
theorem step_sres_cont_iff {s t : State} (h : step s = .next t) :
    t.sres = .cont ↔ Running s ∧ ¬ BadIndexOf (current s) s := by
  rcases step_outcome s with ⟨hf, e⟩ | ⟨halted, e⟩ | ⟨running, bad, e⟩ |
      ⟨running, good, d, p, res, e⟩ <;> (rw [e] at h; cases h)
  · simp [hf]
  · simp [not_running_of_halted halted]
  · simp [bad]
  · exact iff_of_true rfl ⟨running, good⟩

theorem step_answers (s : State) :
    ∃ t, step s = .next t ∧ (t.sres = .halt ∨ t.sres = .cont ∨ t.sres = .fault) := by
  rcases step_cases s with ⟨-, e⟩ | ⟨-, -, e⟩ | ⟨-, -, e⟩ | ⟨-, -, d, p, res, -, e⟩
  · exact ⟨_, e, .inr (.inr rfl)⟩
  · exact ⟨_, e, .inl rfl⟩
  · exact ⟨_, e, .inr (.inr rfl)⟩
  · exact ⟨_, e, .inr (.inl rfl)⟩

/-- The pc after an executed step whose mux value is 2^31 - 1 is negative, so the machine halts
(R54). -/
theorem wraps_and_halts_of_retired {s t : State} {d p : Fin 6} {res : Int} (h : Retired s t d p res)
    (hmux : muxValue s d p res = 2 ^ 31 - 1) :
    t.pc.toInt = -2 ^ 31 ∧ (s.faulted = false → step t = .next { t with sres := .halt }) := by
  have hpc : t.pc.toInt = -2 ^ 31 := by
    rw [h.pc, hmux]
    decide
  refine ⟨hpc, fun hf => step_eq_answerHalt ⟨h.faulted.trans hf, .inl ?_⟩⟩
  omega

/-- R42's write-back and IP sync on integers are `retire`. -/
theorem finish_eq_retire {s : State} {ctl : Control} {a b c : Int} {d p : Fin 6} {res : Word}
    (hc : c = (d.val : Int)) (hp : s.ipsel.toInt = (p.val : Int))
    (hres : res.toInt = aluInt ctl.alu (if ctl.amode = .R then xRead s.regs a else a)
      (if ctl.bmode = .R then xRead s.regs b else if ctl.bmode = .I then b else 0)) :
    finish s ctl a b c s.ipsel.toInt = s.retire d p res := by
  have hdp : ((d.val : Int) = (p.val : Int)) ↔ d = p := by rw [Fin.ext_iff]; omega
  have hmux : (if d = p then res.toInt else (s.x p).toInt) = muxValue s d p res.toInt := rfl
  simp only [finish, ← hres, hc, hp, hdp, xRead_eq_toInt, hmux, ← toInt_nextPc, bits32_toInt,
    xWrite_toInt, ne_eq, ite_not]
  unfold State.retire
  split <;> rfl

/-- The execution of an instruction is R42's, from the decode table on. -/
theorem exec_eq_executeFields (i : Instr) (s : State) :
    exec i s = .next (executeFields s i.opcode i.opA.toInt i.opB.toInt i.opC.toInt) := by
  by_cases bad : BadIndexOf i s
  · have hfields : executeFields s i.opcode i.opA.toInt i.opB.toInt i.opC.toInt =
        s.raiseInvalidProgram := if_pos bad
    rw [exec_of_badIndexOf bad, hfields]
  · have hfields : executeFields s i.opcode i.opA.toInt i.opB.toInt i.opC.toInt =
        finish s i.control i.opA.toInt i.opB.toInt i.opC.toInt s.ipsel.toInt := if_neg bad
    obtain ⟨d, p, hx⟩ := executes_of_not_badIndexOf bad
    obtain ⟨res, hexec, hres⟩ := exec_of_executes hx
    rw [hexec, hfields, finish_eq_retire hx.destination hx.binding hres]

theorem stepOf_of_halted {s : State} (h : Halted s) : stepOf s = { s with sres := .halt } := by
  obtain ⟨hf, hpc⟩ := h
  have outside : ¬ (0 ≤ int32 s.pc ∧ int32 s.pc < s.n) := by
    unfold int32
    omega
  rw [stepOf, hf, if_neg (by simp), if_pos outside]

/-- On a running machine R42 executes the fields of the current instruction. -/
theorem stepOf_of_running {s : State} (h : Running s) :
    stepOf s = executeFields s (current s).opcode (current s).opA.toInt (current s).opB.toInt
      (current s).opC.toInt := by
  obtain ⟨hf, hpc⟩ := h
  rw [current, opcode_decode, opA_decode, opB_decode, opC_decode]
  simp only [stepOf, int32, hf, hpc, Bool.false_eq_true, if_false, not_true, and_self]
  rfl

end

section

open Sys2Proof.Claims Sys2Proof.Reference

/-- Settles O28: the check decides by the two lemmas on a running step; the raised state is a
faulted one, for which the answer and the commands are known. -/
theorem badIndexRaisesInvalidProgram : Obligations.BadIndexRaisesInvalidProgram := by
  refine ⟨fun s hr => ⟨step_of_badIndexOf hr, fun good => ?_⟩, fun i s h => ?_,
    fun s => ⟨step_of_faulted rfl, fun c t h => command_clears_fault_iff h rfl⟩⟩
  · obtain ⟨d, p, res, hstep⟩ := step_of_not_badIndexOf hr good
    exact ⟨_, hstep, (retire_faulted ..).trans hr.1, rfl⟩
  · rcases h with hc | hip
    · exact exec_of_badIndexOf (.inr (.inl hc))
    · exact exec_of_badIndexOf (.inl hip)

/-- Settles O30: the sticky fault and the halt check agree outright; a running machine executes the
current instruction, and that is R42's execution of its fields. -/
theorem stepRefinesPseudocode : Obligations.StepRefinesPseudocode := by
  intro s
  rcases faulted_or_halted_or_running s with hf | halted | running
  · rw [step_of_faulted hf, stepOf, if_pos hf]
    rfl
  · rw [step_eq_answerHalt halted, stepOf_of_halted halted]
    rfl
  · rw [step_eq_exec_current running, stepOf_of_running running, exec_eq_executeFields]

/-- Settles O39: an instruction that executes retires its result, and the rest is the sync rule; of
`seti 2147483647` the mux value is 2^31 - 1 in both ways. -/
theorem pcIncrementWrapsAndHalts : Obligations.PcIncrementWrapsAndHalts := by
  refine ⟨fun s i d p va vb h => ?_, fun s b c d p hf hp hc hmux => ?_⟩
  · obtain ⟨res, hexec, hres⟩ := exec_of_executes h
    have retired := hres ▸ retired_retire s d p res
    exact ⟨_, hexec, retired.ipRegister, retired.pc, wraps_and_halts_of_retired retired⟩
  · have executes : Executes s .I .X 2147483647 b c d p (2 ^ 31 - 1) 0 := ⟨hc, hp, rfl, trivial⟩
    obtain ⟨res, hexec, hres⟩ := exec_of_executes (i := .seti 2147483647 b c) executes
    have value : muxValue s d p res.toInt = 2 ^ 31 - 1 := by
      rw [hres, muxValue]
      split
      · rfl
      · next hdp => exact hmux.resolve_left hdp
    obtain ⟨hpc, halts⟩ := wraps_and_halts_of_retired (retired_retire s d p res) value
    exact ⟨_, hexec, hpc, halts hf⟩

/-- Settles O50: the other commands by their definitions; of a STEP, HALT and CONTINUE each by the
lemma that says when it is shown. -/
theorem stepResultRegister : Obligations.StepResultRegister := by
  refine ⟨⟨rfl, rfl, rfl, rfl⟩, fun s => ⟨⟨s.init, rfl, rfl⟩, ⟨s, rfl, rfl⟩,
    fun ip seq => ⟨s.load ip seq, rfl, rfl⟩, ?_⟩⟩
  obtain ⟨t, hstep, hsres⟩ := step_answers s
  exact ⟨t, hstep, hsres, step_sres_halt_iff hstep, step_sres_cont_iff hstep⟩

/-- Settles O26: the running step is known; a word that is listed is the one fetched. -/
theorem stepRunsDecodedInstruction : Obligations.StepRunsDecodedInstruction := by
  refine ⟨fun s i hr hi => ?_, fun s k w hw => ?_⟩
  · rw [step_eq_exec_current hr, current, hi]
  · simp [State.fetchInstr, hw]

/-- Settles O27: the state after HALT is halted again, since the halt check does not read `sres`. -/
theorem haltCheckChangesNothing : Obligations.HaltCheckChangesNothing := fun s h =>
  have again : Halted s.answerHalt := h
  ⟨step_eq_answerHalt h, step_eq_answerHalt again⟩

end

end Sys2Proof.Machine

namespace Sys2Proof

section
/-! The instruction that an opcode number makes, once for all sixteen numbers: its encoding (R30 to
R34) and its row of the decode table (R35). -/

theorem decode_of_opcode {w : InstrWord} {op : Fin 16} (h : w.toNat % 16 = op.val) :
    decode w = instrOfFields op (fieldA w) (fieldB w) (fieldC w) := by
  have hop : (opField w).toFin = op := Fin.ext ((opField_toNat w).trans h)
  rw [decode, hop]

/-- The reserved bits of slot 0 are zero, so the slot is the opcode number (R32). -/
theorem slot0_ofFin (op : Fin 16) : slot0 (BitVec.ofFin op) = BitVec.ofNat 32 op.val := by
  apply BitVec.eq_of_toNat_eq
  have hslot : (slot0 (BitVec.ofFin op)).toNat = op.val := (BitVec.toNat_append ..).trans (by simp)
  rw [hslot, BitVec.toNat_ofNat, Nat.mod_eq_of_lt (by omega)]

theorem encode_instrOfFields (op : Fin 16) (a b c : Word) :
    encode (instrOfFields op a b c) = c ++ b ++ a ++ BitVec.ofNat 32 op.val := by
  obtain ⟨hA, hB, hC⟩ := operands_instrOfFields op a b c
  rw [encode, opcode_instrOfFields, hA, hB, hC, slot0_ofFin, wordOfSlots]

theorem control_instrOfFields (op : Fin 16) (a b c : Word) :
    (instrOfFields op a b c).control = decodeTable[op] := by
  simp only [Instr.control, opcode_instrOfFields]

end

end Sys2Proof

namespace Sys2Proof.Machine

section
/-! The rule of the instruction that an opcode number makes, by its row of the decode table (R35,
R42). -/

open Sys2Proof.Reference Sys2Proof.Claims

variable {op : Fin 16} {s : State} {a b c : Word}

/-- Every index in range: the result that the opcode's row gives is retired. -/
theorem exec_instrOfFields_of_executes {d p : Fin 6} {va vb : Int}
    (h : Executes s decodeTable[op].amode decodeTable[op].bmode a b c d p va vb) :
    ∃ t, exec (instrOfFields op a b c) s = .next t ∧
      Retired s t d p (aluInt decodeTable[op].alu va vb) := by
  obtain ⟨res, hexec, hres⟩ := exec_of_executes (i := instrOfFields op a b c)
    (by simpa only [control_instrOfFields, operands_instrOfFields] using h)
  rw [control_instrOfFields] at hres
  exact ⟨_, hexec, hres ▸ retired_retire s d p res⟩

theorem exec_instrOfFields_of_badIndex
    (h : BadIndex s decodeTable[op].amode decodeTable[op].bmode a b c) :
    exec (instrOfFields op a b c) s = .next s.raiseInvalidProgram :=
  exec_of_badIndexOf
    (by simpa only [BadIndexOf, control_instrOfFields, operands_instrOfFields] using h)

end

section

open Sys2Proof.Reference Sys2Proof.Claims

/-- The instruction of opcode number `op` follows row `op` of the decode table: operand kinds and
ALU function are the row's, and the rule's result is that function on integers. -/
theorem instrRule_of_opcode (op : Fin 16) :
    InstrRule op.val (instrOfFields op) decodeTable[op].amode decodeTable[op].bmode
      (aluInt decodeTable[op].alu) :=
  ⟨fun _ => decode_of_opcode, encode_instrOfFields op,
    fun _ _ _ _ _ _ _ _ => exec_instrOfFields_of_executes,
    fun _ _ _ _ => exec_instrOfFields_of_badIndex⟩

/-- Settles O1: row 0 of the decode table is ADD on two registers. -/
theorem addrAddsRegisters : Obligations.AddrAddsRegisters := instrRule_of_opcode 0

/-- Settles O2: row 1 is ADD on a register and an immediate, which is not checked as an index. -/
theorem addiAddsImmediate : Obligations.AddiAddsImmediate := instrRule_of_opcode 1

/-- Settles O3: row 2 is MUL on two registers. -/
theorem mulrMultipliesRegisters : Obligations.MulrMultipliesRegisters := instrRule_of_opcode 2

/-- Settles O4: row 3 is MUL on a register and an immediate. -/
theorem muliMultipliesByImmediate : Obligations.MuliMultipliesByImmediate := instrRule_of_opcode 3

/-- Settles O17: the signed value of an ALU result is the spec's; the low 32 bits of the exact sum
or product are the sum or product of the operands' words. -/
theorem addAndMulWrapExactResult : Obligations.AddAndMulWrapExactResult := by
  intro va vb
  have hadd : alu .ADD va vb = BitVec.ofInt 32 (va.toInt + vb.toInt) := by
    rw [BitVec.ofInt_add, BitVec.ofInt_toInt, BitVec.ofInt_toInt, alu]
  have hmul : alu .MUL va vb = BitVec.ofInt 32 (va.toInt * vb.toInt) := by
    rw [BitVec.ofInt_mul, BitVec.ofInt_toInt, BitVec.ofInt_toInt, alu]
  exact ⟨toInt_alu .ADD va vb, hadd, toInt_alu .MUL va vb, hmul⟩

end

end Sys2Proof.Machine

namespace Sys2Proof.Machine

section
/-! AND and OR (42_bitwise.md R64 to R68): rows 4 to 7 of the decode table, and the bits and the sign
of a result. -/

/-- Settles O5: row 4 of the decode table is AND on two registers. -/
theorem banrAndsRegisters : Obligations.BanrAndsRegisters := instrRule_of_opcode 4

/-- Settles O6: row 5 is AND on a register and an immediate, which is not checked as an index. -/
theorem baniAndsImmediate : Obligations.BaniAndsImmediate := instrRule_of_opcode 5

/-- Settles O7: row 6 is OR on two registers. -/
theorem borrOrsRegisters : Obligations.BorrOrsRegisters := instrRule_of_opcode 6

/-- Settles O8: row 7 is OR on a register and an immediate. -/
theorem boriOrsImmediate : Obligations.BoriOrsImmediate := instrRule_of_opcode 7

/-- Bit 31 is the sign bit (R64). -/
theorem toInt_neg_iff_msb (v : Word) : v.toInt < 0 ↔ v.msb = true := by
  rw [BitVec.msb_eq_toInt, decide_eq_true_iff]

theorem alu_and_neg_iff (va vb : Word) :
    (alu .AND va vb).toInt < 0 ↔ va.toInt < 0 ∧ vb.toInt < 0 := by
  simp only [toInt_neg_iff_msb, alu, BitVec.msb_and, Bool.and_eq_true]

theorem alu_or_neg_iff (va vb : Word) :
    (alu .OR va vb).toInt < 0 ↔ va.toInt < 0 ∨ vb.toInt < 0 := by
  simp only [toInt_neg_iff_msb, alu, BitVec.msb_or, Bool.or_eq_true]

/-- Settles O18: the bits of a result are the library's for the pattern operation, its signed value
is the spec's ALU's, and its sign is its bit 31. -/
theorem andOrActBitByBit : Obligations.AndOrActBitByBit := fun va vb =>
  ⟨fun _ _ => BitVec.getLsbD_and, fun _ _ => BitVec.getLsbD_or,
    toInt_alu .AND va vb, toInt_alu .OR va vb, alu_and_neg_iff va vb, alu_or_neg_iff va vb⟩

end

end Sys2Proof.Machine

namespace Sys2Proof.Machine

section
/-! PASS and the results of the comparisons (43_assignment.md R69 to R71, 44_comparison.md R72): rows 8
and 9 of the decode table, and the ALU functions they and the comparisons use. -/

/-- Settles O9: row 8 of the decode table is PASS on a register, with operand B unused. -/
theorem setrCopiesRegister : Obligations.SetrCopiesRegister := instrRule_of_opcode 8

/-- Settles O10: row 9 is PASS on an immediate, so only C and the binding are checked as indices. -/
theorem setiLoadsImmediate : Obligations.SetiLoadsImmediate := instrRule_of_opcode 9

/-- Settles O19: PASS returns its first operand as it is; the signed value of a comparison's result
is the spec's truth value of the operands' signed values. -/
theorem passAndCompareResults : Obligations.PassAndCompareResults := fun va vb =>
  ⟨rfl, toInt_alu .GT va vb, toInt_alu .EQ va vb⟩

end

end Sys2Proof.Machine

namespace Sys2Proof.Machine

section
/-! The comparisons (44_comparison.md R73 to R78): rows 10 to 15 of the decode table, GT and EQ with
each choice of operand kinds. An immediate is compared as it is and never checked as an index. -/

/-- Settles O11: row 10 of the decode table is GT on an immediate and a register. -/
theorem gtirComparesImmediateWithRegister : Obligations.GtirComparesImmediateWithRegister :=
  instrRule_of_opcode 10

/-- Settles O12: row 11 is GT on a register and an immediate. -/
theorem gtriComparesRegisterWithImmediate : Obligations.GtriComparesRegisterWithImmediate :=
  instrRule_of_opcode 11

/-- Settles O13: row 12 is GT on two registers. -/
theorem gtrrComparesRegisters : Obligations.GtrrComparesRegisters := instrRule_of_opcode 12

/-- Settles O14: row 13 is EQ on an immediate and a register. -/
theorem eqirTestsImmediateAgainstRegister : Obligations.EqirTestsImmediateAgainstRegister :=
  instrRule_of_opcode 13

/-- Settles O15: row 14 is EQ on a register and an immediate. -/
theorem eqriTestsRegisterAgainstImmediate : Obligations.EqriTestsRegisterAgainstImmediate :=
  instrRule_of_opcode 14

/-- Settles O16: row 15 is EQ on two registers. -/
theorem eqrrTestsRegisters : Obligations.EqrrTestsRegisters := instrRule_of_opcode 15

end

end Sys2Proof.Machine

namespace Sys2Proof.Machine

section
/-! The priority of a STEP's outcomes (60_exceptions.md R83). -/

open Sys2Proof.Claims

/-- A STEP shows FAULT exactly when it found the machine faulted, or running with a failed index
check (R45, R50). -/
theorem step_sres_fault_iff {s t : State} (h : step s = .next t) :
    t.sres = .fault ↔ s.faulted = true ∨ (Running s ∧ BadIndexOf (current s) s) := by
  rcases step_outcome s with ⟨hf, e⟩ | ⟨halted, e⟩ | ⟨running, bad, e⟩ |
      ⟨running, good, d, p, res, e⟩ <;> (rw [e] at h; cases h)
  · simp [hf]
  · simp [halted.1, not_running_of_halted halted]
  · exact iff_of_true rfl (.inr ⟨running, bad⟩)
  · simp [running.1, good]

/-- Settles O29: every STEP answers a next state, and each of its three results is shown exactly
under the conditions that the priority gives it. -/
theorem stepOutcomePriority : Obligations.StepOutcomePriority := by
  intro s
  obtain ⟨t, hstep, -⟩ := step_answers s
  have fault := step_sres_fault_iff hstep
  exact ⟨t, hstep, fun hf => fault.2 (.inl hf), (step_sres_halt_iff hstep).2,
    fun running bad => fault.2 (.inr ⟨running, bad⟩),
    fun running good => (step_sres_cont_iff hstep).2 ⟨running, good⟩⟩

end

end Sys2Proof.Machine

namespace Sys2Proof.Machine

section
/-! The state after reset and the LOAD that starts it (70_reset_and_hazards.md R92). -/

open Sys2Proof.Claims

/-- After reset the program is empty, so pc = 0 already fails the halt check. -/
theorem reset_halted : Halted State.reset := ⟨rfl, .inr le_rfl⟩

/-- LOAD keeps pc = 0 and the clear fault bit, so the halt check then passes exactly when there is a
first instruction. -/
theorem running_load_reset_iff {ip : Word} {seq : List InstrWord} :
    Running (State.reset.load ip seq) ↔ seq ≠ [] :=
  have hlen : (0 : Int) < seq.length ↔ seq ≠ [] := Int.natCast_pos.trans List.length_pos_iff
  ⟨fun ⟨_, _, hpc⟩ => hlen.1 hpc, fun h => ⟨rfl, le_rfl, hlen.2 h⟩⟩

/-- Settles O41: the fields have their values by definition; the rest is that the reset state is
halted and that it runs after a LOAD of a program with a first instruction. -/
theorem resetValues : Obligations.ResetValues :=
  ⟨reset_x, rfl, rfl, rfl, rfl, rfl, status_halted_iff.2 reset_halted,
    step_eq_answerHalt reset_halted,
    fun _ w ws => status_running_iff.2 (running_load_reset_iff.2 (List.cons_ne_nil w ws))⟩

end

end Sys2Proof.Machine

namespace Sys2Proof

section
/-! The encoder against the decoder (R30 to R34): the fields of an instruction's word, an instruction
rebuilt from its fields, and the bits of a word rebuilt from the fields that the decoder took. -/

@[simp] theorem opField_encode (i : Instr) : opField (encode i) = i.opcode := opField_wordOfSlots ..

@[simp] theorem fieldA_encode (i : Instr) : fieldA (encode i) = i.opA := fieldA_wordOfSlots ..

@[simp] theorem fieldB_encode (i : Instr) : fieldB (encode i) = i.opB := fieldB_wordOfSlots ..

@[simp] theorem fieldC_encode (i : Instr) : fieldC (encode i) = i.opC := fieldC_wordOfSlots ..

/-- An instruction is determined by its opcode number and its operands: the opcode map inverts
`Instr.opcode`. -/
theorem instrOfFields_opcode_operands (i : Instr) :
    instrOfFields i.opcode.toFin i.opA i.opB i.opC = i := by
  cases i <;> rfl

theorem decode_encode (i : Instr) : decode (encode i) = i := by
  rw [decode, opField_encode, fieldA_encode, fieldB_encode, fieldC_encode,
    instrOfFields_opcode_operands]

theorem encode_decode (w : InstrWord) :
    encode (decode w) = wordOfSlots (slot0 (opField w)) (fieldA w) (fieldB w) (fieldC w) := by
  rw [encode, opcode_decode, opA_decode, opB_decode, opC_decode]

/-- Slot 0 holds the opcode number in its low four bits and zero above. -/
theorem getLsbD_slot0 (op : BitVec 4) (k : Nat) :
    (slot0 op).getLsbD k = (decide (k < 4) && op.getLsbD k) := by
  rw [slot0, BitVec.getLsbD_append]
  by_cases hk : k < 4 <;> simp [hk]

/-- Bit `k` of a word is bit `k % 32` of slot `k / 32`. -/
theorem getLsbD_wordOfSlots (s0 s1 s2 s3 : Word) (k : Nat) :
    (wordOfSlots s0 s1 s2 s3).getLsbD k =
      if k < 32 then s0.getLsbD k else if k < 64 then s1.getLsbD (k - 32)
      else if k < 96 then s2.getLsbD (k - 64) else s3.getLsbD (k - 96) := by
  simp only [wordOfSlots, BitVec.getLsbD_append]
  split
  · rfl
  · have h1 : k - 32 < 32 ↔ k < 64 := by omega
    have h2 : k - 64 < 32 ↔ k < 96 := by omega
    simp only [Nat.sub_sub, Nat.reduceAdd, h1, h2]

end

/-- Settles O20: the decoder reads back the four fields the encoder wrote, and they determine the
instruction. -/
theorem decodeOfEncodeIsIdentity : Obligations.DecodeOfEncodeIsIdentity := decode_encode

/-- Settles O21: slot by slot. Slots 1 to 3 come back whole; of slot 0 the opcode number does, and
zero stands above it. -/
theorem encodeOfDecodeClearsReservedBits : Obligations.EncodeOfDecodeClearsReservedBits := by
  intro w k hk
  rw [encode_decode, getLsbD_wordOfSlots, getLsbD_slot0]
  split
  · by_cases h4 : k < 4
    · simp [opField, h4, show ¬ 4 ≤ k by omega]
    · simp [h4, show 4 ≤ k by omega, show k ≤ 31 by omega]
  · have outside : (!(decide (4 ≤ k) && decide (k ≤ 31))) = true := by
      simp [show ¬ k ≤ 31 by omega]
    rw [outside, Bool.and_true]
    split
    · simp [fieldA, show k - 32 < 32 by omega, show 32 + (k - 32) = k by omega]
    · split
      · simp [fieldB, show k - 64 < 32 by omega, show 64 + (k - 64) = k by omega]
      · simp [fieldC, show k - 96 < 32 by omega, show 96 + (k - 96) = k by omega]

/-- Settles O24: the decoder is evaluated on the five words. -/
theorem specWordsDecode : Obligations.SpecWordsDecode :=
  ⟨by decide, by decide, by decide, by decide, by decide⟩

end Sys2Proof

namespace Sys2Proof.Machine

section
/-! The invariants of the store, of the fault bit and of the ip register under a STEP and under the
other commands (R15, R19, R21, R50, R55). -/

theorem step_storeInv {s t : State} (h : s.StoreInv) (hstep : step s = .next t) : t.StoreInv :=
  have ⟨_, hn, hprog⟩ := step_frame hstep
  storeInv_congr h hn hprog

/-- A STEP writes `sres` and the fault bit together, so what it leaves does not depend on what they
showed before. -/
theorem step_faultShown {s t : State} (hstep : step s = .next t) : t.FaultShown := by
  unfold State.FaultShown
  rcases step_cases s with ⟨hf, e⟩ | ⟨hf, -, e⟩ | ⟨-, -, e⟩ | ⟨hf, -, d, p, res, -, e⟩ <;>
    (rw [e] at hstep; cases hstep)
  · simp [hf]
  · simp [hf]
  · simp
  · simp [hf]

/-- The register that the binding names holds the next pc after an executed step (R46). -/
theorem retire_x_ipsel (s : State) (d p : Fin 6) (res : Word) :
    (s.retire d p res).x p = (s.retire d p res).pc := by
  simp [retire_x]

theorem retire_synced {s : State} {p : Fin 6} (hp : s.ipsel.toInt = (p.val : Int)) (d : Fin 6)
    (res : Word) : (s.retire d p res).Synced := by
  intro q hq
  rw [retire_ipsel, hp] at hq
  obtain rfl : p = q := Fin.ext (by omega)
  exact retire_x_ipsel s d p res

/-- A STEP that executes syncs the ip register; any other leaves the registers, pc and the binding. -/
theorem step_synced {s t : State} (h : s.Synced) (hstep : step s = .next t) : t.Synced := by
  rcases step_cases s with ⟨-, e⟩ | ⟨-, -, e⟩ | ⟨-, -, e⟩ | ⟨-, -, d, p, res, hp, e⟩ <;>
    (rw [e] at hstep; cases hstep)
  · exact h
  · exact h
  · exact h
  · exact retire_synced hp d res

theorem command_storeInv {c : Command} {s t : State} (h : s.StoreInv) (hc : c.Presentable)
    (hcmd : command c s = .next t) : t.StoreInv := by
  cases c with
  | nop => cases hcmd; exact h
  | step => exact step_storeInv h hcmd
  | load ip seq => cases hcmd; exact load_storeInv h hc
  | init => cases hcmd; exact init_storeInv h

theorem init_faultShown (s : State) : s.init.FaultShown := by
  simp [State.FaultShown]

theorem command_faultShown {c : Command} {s t : State} (h : s.FaultShown)
    (hcmd : command c s = .next t) : t.FaultShown := by
  cases c with
  | nop => cases hcmd; exact h
  | step => exact step_faultShown hcmd
  | load ip seq => cases hcmd; exact h
  | init => cases hcmd; exact init_faultShown s

/-- At reset nothing is listed and N is 0. -/
theorem storeInv_reset : State.reset.StoreInv :=
  ⟨reset_prog_wf, nofun, Nat.zero_le _, nofun⟩

/-- After INIT every register, like pc, is 0, so a LOAD of any binding finds it synced. -/
theorem load_init_synced (s : State) (ip : Word) (seq : List InstrWord) :
    (s.init.load ip seq).Synced :=
  fun p _ => init_x s p

theorem reset_synced : State.reset.Synced := fun p _ => reset_x p

end

/-- Settles O32: each of the three invariants by its own lemma on a STEP. -/
theorem stepKeepsInvariants : Obligations.StepKeepsInvariants :=
  fun _ _ store _ synced hstep =>
    ⟨step_storeInv store hstep, step_faultShown hstep, step_synced synced hstep⟩

/-- Settles O56: each of the two invariants by the four commands. -/
theorem commandsKeepStoreAndFaultInvariants : Obligations.CommandsKeepStoreAndFaultInvariants :=
  fun _ _ _ store fault hc hcmd => ⟨command_storeInv store hc hcmd, command_faultShown fault hcmd⟩

/-- Settles O33: the reset state is an INIT state, with an empty store. -/
theorem resetMeetsInvariants : Obligations.ResetMeetsInvariants :=
  ⟨storeInv_reset, init_faultShown State.reset, reset_synced⟩

/-- Settles O34: by induction over the commands that lead to the state. -/
theorem reachableStatesAreConsistent : Obligations.ReachableStatesAreConsistent := by
  intro s h
  induction h with
  | reset => exact ⟨storeInv_reset, init_faultShown State.reset⟩
  | next c _ hc hcmd ih =>
    obtain ⟨store, fault⟩ := ih
    exact commandsKeepStoreAndFaultInvariants c _ _ store fault hc hcmd

/-- Settles O31: of the four cases of a STEP only the one that retires a result shows CONTINUE. -/
theorem continueLeavesIpRegisterEqualPc : Obligations.ContinueLeavesIpRegisterEqualPc := by
  intro s t hstep hcont
  rcases step_cases s with ⟨-, e⟩ | ⟨-, -, e⟩ | ⟨-, -, e⟩ | ⟨-, -, d, p, res, hp, e⟩ <;>
    (rw [e] at hstep; cases hstep)
  · cases hcont
  · cases hcont
  · cases hcont
  · exact ⟨p, by rw [retire_ipsel, hp], retire_x_ipsel s d p res⟩

end Sys2Proof.Machine

namespace Sys2Proof.Machine

section
/-! What one instruction does, in the vocabulary of the statements: the two outcomes of `exec`, and
the reading of the ip register in a synced machine (R45 to R48, R53). -/

open Sys2Proof.Reference Sys2Proof.Claims

theorem exec_retired_of_executes {i : Instr} {s : State} {d p : Fin 6} {va vb : Int}
    (h : Executes s i.control.amode i.control.bmode i.opA i.opB i.opC d p va vb) :
    ∃ t, exec i s = .next t ∧ Retired s t d p (aluInt i.control.alu va vb) := by
  obtain ⟨res, hexec, hres⟩ := exec_of_executes h
  exact ⟨_, hexec, hres ▸ retired_retire s d p res⟩

/-- An instruction raises the fault, on a failed index check, or retires a result into the register
that C names; there is no third outcome. -/
theorem exec_outcome (i : Instr) (s : State) :
    (BadIndexOf i s ∧ exec i s = .next s.raiseInvalidProgram) ∨
    (∃ d p : Fin 6, i.opC.toInt = (d.val : Int) ∧ s.ipsel.toInt = (p.val : Int) ∧
      ∃ t res, exec i s = .next t ∧ Retired s t d p res) := by
  by_cases bad : BadIndexOf i s
  · exact .inl ⟨bad, exec_of_badIndexOf bad⟩
  · obtain ⟨d, p, hx⟩ := executes_of_not_badIndexOf bad
    obtain ⟨t, hexec, retired⟩ := exec_retired_of_executes hx
    exact .inr ⟨d, p, hx.destination, hx.binding, t, _, hexec, retired⟩

/-- In a synced machine x[ipsel] is pc, so an operand that reads its own index reads what any operand
reads (R48). -/
theorem reads_of_readsOwnIndex {s : State} {p : Fin 6} {m : Mode} {field : Word} {v : Int}
    (hs : s.Synced) (hp : s.ipsel.toInt = (p.val : Int)) (h : ReadsOwnIndex s m field v) :
    Reads s m field v := by
  cases m with
  | R =>
    rcases h with ⟨hfield, rfl⟩ | ⟨-, hreg⟩
    · exact ⟨p, hfield.trans hp, by rw [hs p hp]⟩
    · exact hreg
  | I => exact h
  | X => trivial

theorem exec_retired_of_readsOwnIndex {i : Instr} {s : State} {d p : Fin 6} {va vb : Int}
    (hs : s.Synced) (hp : s.ipsel.toInt = (p.val : Int)) (hd : i.opC.toInt = (d.val : Int))
    (hA : ReadsOwnIndex s i.control.amode i.opA va)
    (hB : ReadsOwnIndex s i.control.bmode i.opB vb) :
    ∃ t, exec i s = .next t ∧ Retired s t d p (aluInt i.control.alu va vb) :=
  exec_retired_of_executes
    ⟨hd, hp, reads_of_readsOwnIndex hs hp hA, reads_of_readsOwnIndex hs hp hB⟩

/-- An instruction that writes the ip register continues after its result (R53). -/
theorem jumps_of_retired {s t : State} {p : Fin 6} {res : Int} (h : Retired s t p p res) :
    t.pc.toInt = wrap32 (res + 1) ∧ t.x p = t.pc ∧ ∀ j, j ≠ p → t.x j = s.x j :=
  ⟨by rw [h.pc, muxValue, if_pos rfl], h.ipRegister, fun j hj => h.others j hj hj⟩

/-- An instruction that does not write a synced ip register continues at the next index (R46). -/
theorem pc_of_retired_of_ne {s t : State} {d p : Fin 6} {res : Int} (h : Retired s t d p res)
    (hs : s.Synced) (hp : s.ipsel.toInt = (p.val : Int)) (hdp : d ≠ p) :
    t.pc.toInt = wrap32 (s.pc.toInt + 1) := by
  rw [h.pc, muxValue, if_neg hdp, hs p hp]

/-- Wrapping twice is wrapping once: a wrapped value keeps its low 32 bits. -/
theorem wrap32_wrap32_add_one (v : Int) : wrap32 (wrap32 v + 1) = wrap32 (v + 1) := by
  unfold wrap32
  omega

end

section

open Sys2Proof.Reference Sys2Proof.Claims

/-- Settles O36: in a synced machine the sources read pc from the ip register, and the instruction
retires the result on them; `setr` is the case whose result is its operand A. -/
theorem ipRegisterReadsOwnIndex : Obligations.IpRegisterReadsOwnIndex := by
  refine ⟨fun _ _ _ _ _ _ => exec_retired_of_readsOwnIndex, fun s a b c d p hs hp ha hc hdp => ?_⟩
  have readsPc : ReadsOwnIndex s .R a s.pc.toInt := .inl ⟨ha.trans hp.symm, rfl⟩
  obtain ⟨t, hexec, retired⟩ :=
    exec_retired_of_readsOwnIndex (i := .setr a b c) (vb := 0) hs hp hc readsPc trivial
  exact ⟨t, hexec, BitVec.eq_of_toInt_eq (retired.destination hdp)⟩

/-- Settles O37: each idiom executes with the ip register as its destination; where it reads that
register it reads pc. -/
theorem writesToIpRegisterJump : Obligations.WritesToIpRegisterJump := by
  intro s ip k p hs hp hip
  have readsPc : Reads s .R ip s.pc.toInt := ⟨p, hip, by rw [hs p hp]⟩
  refine ⟨fun b => ?_, ?_, fun q hq => ?_⟩
  · have executes : Executes s .I .X k b ip p p k.toInt 0 := ⟨hip, hp, rfl, trivial⟩
    obtain ⟨t, hexec, retired⟩ := exec_retired_of_executes (i := .seti k b ip) executes
    exact ⟨t, hexec, jumps_of_retired retired⟩
  · have executes : Executes s .R .I ip k ip p p s.pc.toInt k.toInt := ⟨hip, hp, readsPc, rfl⟩
    obtain ⟨t, hexec, retired⟩ := exec_retired_of_executes (i := .addi ip k ip) executes
    exact ⟨t, hexec, wrap32_wrap32_add_one _ ▸ jumps_of_retired retired⟩
  · have executes : Executes s .R .R k ip ip p p (s.x q).toInt s.pc.toInt :=
      ⟨hip, hp, ⟨q, hq, rfl⟩, readsPc⟩
    obtain ⟨t, hexec, retired⟩ := exec_retired_of_executes (i := .addr k ip ip) executes
    rw [Int.add_comm s.pc.toInt]
    exact ⟨t, hexec, wrap32_wrap32_add_one _ ▸ jumps_of_retired retired⟩

/-- Settles O38: an instruction that shows CONTINUE retired a result, and into a register that is not
the ip register. -/
theorem otherInstructionsContinueAtNextPc : Obligations.OtherInstructionsContinueAtNextPc := by
  intro s t i hs hexec hcont hne
  rcases exec_outcome i s with ⟨-, e⟩ | ⟨d, p, hd, hp, t', res, e, retired⟩ <;>
    (rw [e] at hexec; cases hexec)
  · cases hcont
  · refine pc_of_retired_of_ne retired hs hp ?_
    rintro rfl
    exact hne (hd.trans hp.symm)

/-- Settles O40: the fault writes none of these, and a retired result writes the registers that C and
the binding name. -/
theorem instructionsWriteOnlyDestinationAndIpRegister :
    Obligations.InstructionsWriteOnlyDestinationAndIpRegister := by
  intro i s t hexec
  rcases exec_outcome i s with ⟨-, e⟩ | ⟨d, p, hd, hp, t', res, e, retired⟩ <;>
    (rw [e] at hexec; cases hexec)
  · exact ⟨fun _ _ _ => rfl, rfl, rfl, fun _ => rfl⟩
  · refine ⟨fun k hkd hkp => retired.others k ?_ ?_, retired.ipsel, retired.n, retired.words⟩
    · rintro rfl
      exact hkd hd.symm
    · rintro rfl
      exact hkp hp.symm

/-- Settles O48: the binding after each of the four commands and after each outcome of an instruction;
an illegal one is a failed index check. -/
theorem bindingIsWrittenByLoadAndInitOnly : Obligations.BindingIsWrittenByLoadAndInitOnly := by
  refine ⟨rfl, fun c s t h => ?_, fun i s t h => ?_,
    fun s hr hip => step_of_badIndexOf hr (.inl hip)⟩
  · cases c with
    | nop => cases h; rfl
    | step =>
      obtain ⟨hip, -⟩ := step_frame h
      exact hip
    | load ip seq => cases h; rfl
    | init => cases h; rfl
  · obtain ⟨-, hip, -⟩ := instructionsWriteOnlyDestinationAndIpRegister i s t h
    exact hip

end

end Sys2Proof.Machine

namespace Sys2Proof.Machine

section
/-! INIT and LOAD: the state they leave and what a STEP makes of it (R41, R90). -/

open Sys2Proof.Reference Sys2Proof.Claims

/-- After INIT the program is empty, so pc = 0 fails the halt check. -/
theorem init_halted (s : State) : Halted s.init := ⟨rfl, .inr le_rfl⟩

theorem load_nil_halted {s : State} (hf : s.faulted = false) (ip : Word) :
    Halted (s.load ip []) := by
  refine ⟨hf, ?_⟩
  simp only [load_pc, load_n, List.length_nil]
  omega

/-- Below N a fetch after LOAD gives the image's word. -/
theorem fetchInstr_load_of_lt (s : State) (ip : Word) {seq : List InstrWord} {k : Nat}
    (h : k < seq.length) : (s.load ip seq).fetchInstr k = seq[k] := by
  simp [State.fetchInstr, read_writeImage, h]

/-- From N on a fetch after LOAD gives what it gave before (log entry 6). -/
theorem fetchInstr_load_of_le (s : State) (ip : Word) {seq : List InstrWord} {k : Nat}
    (h : seq.length ≤ k) : (s.load ip seq).fetchInstr k = s.fetchInstr k := by
  simp [State.fetchInstr, read_writeImage, show ¬ k < seq.length by omega]

/-- A LOAD on a machine whose pc is an index of the image sets it running on the image's word there. -/
theorem running_load {s : State} {seq : List InstrWord} {k : Nat} (hf : s.faulted = false)
    (hpc : s.pc.toInt = (k : Int)) (h : k < seq.length) (ip : Word) :
    Running (s.load ip seq) ∧ current (s.load ip seq) = decode seq[k] := by
  refine ⟨⟨hf, ?_, ?_⟩, ?_⟩
  · rw [load_pc]
    omega
  · rw [load_pc, load_n]
    omega
  · simp only [current, load_pc, hpc, Int.toNat_natCast, fetchInstr_load_of_lt s ip h]

theorem runCommands_singleton (c : Command) (s : State) : runCommands [c] s = command c s := by
  simp only [runCommands]
  split <;> simp [*]

end

section

open Sys2Proof.Claims

/-- Settles O42: what INIT sets is its definition, and the state it leaves is halted; the clauses on
the other commands are `command_clears_fault_iff` and the definitions of NOP and LOAD. -/
theorem initClearsEverythingButProgram : Obligations.InitClearsEverythingButProgram := by
  refine fun s => ⟨s.init, rfl, init_x s, rfl, rfl, rfl, rfl, rfl, fun _ => rfl,
    step_eq_answerHalt (init_halted s), fun c u hf h hu => (command_clears_fault_iff h hf).1 hu,
    fun c u hinit hstep h => ?_⟩
  cases c with
  | nop => cases h; exact ⟨rfl, fun _ => rfl⟩
  | step => exact absurd rfl hstep
  | load ip seq => cases h; exact ⟨rfl, fun _ => rfl⟩
  | init => exact absurd rfl hinit

/-- Settles O43: the words by a fetch after LOAD, below N and from N on; an empty program leaves the
machine halted, and an illegal binding is a failed index check. -/
theorem loadReplacesProgramOnly : Obligations.LoadReplacesProgramOnly := by
  refine fun s ip seq => ⟨s.load ip seq, rfl, rfl, rfl, fun _ => fetchInstr_load_of_lt s ip,
    fun _ => fetchInstr_load_of_le s ip, fun _ => rfl, rfl, rfl, rfl, ?_,
    fun hip hr => step_of_badIndexOf hr (.inl hip)⟩
  rintro rfl hf
  exact haltCheckChangesNothing _ (load_nil_halted hf ip)

/-- Settles O44: after the LOAD the machine runs, on the image's word at pc. -/
theorem firstStepAfterLoadRunsNewProgram : Obligations.FirstStepAfterLoadRunsNewProgram := by
  intro s ip seq k h hf hpc
  obtain ⟨running, hcurrent⟩ := running_load hf hpc h ip
  rw [runCommands_cons_of_next _ (command_load s ip seq), runCommands_singleton, command_step,
    step_eq_exec_current running, hcurrent]

/-- Settles O51: the codes select the commands by definition, and HALTED is the derived status. -/
theorem portsFollowTheirCodes : Obligations.PortsFollowTheirCodes := fun _ _ _ =>
  ⟨rfl, rfl, rfl, rfl, rfl, rfl, rfl, rfl, decide_eq_true_iff.trans status_halted_iff⟩

end

end Sys2Proof.Machine

namespace Sys2Proof.Machine

section
/-! Runs of commands that keep a property, and sessions (R51, R93). -/

open Sys2Proof.Claims

/-- What every given command answers with and keeps, the run of them answers with and keeps. -/
theorem runCommands_keeps {P : State → Prop} {cs : List Command}
    (keeps : ∀ c ∈ cs, ∀ s, P s → ∃ t, command c s = .next t ∧ P t) {s : State} (hs : P s) :
    ∃ t, runCommands cs s = .next t ∧ P t := by
  induction cs generalizing s with
  | nil => exact ⟨s, rfl, hs⟩
  | cons c cs ih =>
    obtain ⟨hc, hrest⟩ := List.forall_mem_cons.1 keeps
    obtain ⟨t, hcmd, ht⟩ := hc s hs
    rw [runCommands_cons_of_next cs hcmd]
    exact ih hrest ht

/-- After its INIT and its LOAD a session is a run of STEPs. -/
theorem runCommands_session (ip : Word) (seq : List InstrWord) (k : Nat) (s : State) :
    runCommands (session ip seq k) s =
      runCommands (List.replicate k .step) (s.init.load ip seq) := rfl

/-- A property of the loaded machine that every STEP keeps holds at the end of the session. -/
theorem session_keeps {P : State → Prop} (keeps : ∀ s, P s → ∃ t, step s = .next t ∧ P t)
    {s : State} {ip : Word} {seq : List InstrWord} (k : Nat) (loaded : P (s.init.load ip seq)) :
    ∃ t, runCommands (session ip seq k) s = .next t ∧ P t := by
  rw [runCommands_session]
  refine runCommands_keeps (fun c hc => ?_) loaded
  obtain rfl := List.eq_of_mem_replicate hc
  exact keeps

/-- A command other than INIT leaves a faulted machine faulted, with its registers and pc (R42, R80). -/
theorem command_of_faulted {c : Command} {s : State} (hf : s.faulted = true) (hc : c ≠ .init) :
    ∃ t, command c s = .next t ∧ t.faulted = true ∧ (∀ k : Fin 6, t.x k = s.x k) ∧
      t.pc = s.pc := by
  cases c with
  | nop => exact ⟨s, rfl, hf, fun _ => rfl, rfl⟩
  | step => exact ⟨s.answerFault, step_of_faulted hf, hf, fun _ => rfl, rfl⟩
  | load ip seq => exact ⟨s.load ip seq, rfl, hf, fun _ => rfl, rfl⟩
  | init => exact absurd rfl hc

end

section

open Sys2Proof.Claims

/-- Settles O46: the property is that of being faulted with the registers and pc of the start. -/
theorem onlyInitRecoversFromFault : Obligations.OnlyInitRecoversFromFault := by
  intro cs s hf hcs
  refine runCommands_keeps (fun c hc u hu => ?_) ⟨hf, fun _ => rfl, rfl⟩
  obtain ⟨hfu, hx, hpc⟩ := hu
  obtain ⟨t, hcmd, hft, hxt, hpct⟩ := command_of_faulted hfu (hcs c hc)
  exact ⟨t, hcmd, hft, fun k => (hxt k).trans (hx k), hpct.trans hpc⟩

/-- Settles O35: the loaded machine is synced, and every STEP keeps it so. -/
theorem sessionKeepsIpRegisterSynced : Obligations.SessionKeepsIpRegisterSynced := by
  intro s ip seq k
  refine session_keeps (fun u hu => ?_) k (load_init_synced s ip seq)
  obtain ⟨t, hstep, -⟩ := step_answers u
  exact ⟨t, hstep, step_synced hu hstep⟩

end

end Sys2Proof.Machine

namespace Sys2Proof.Machine

section
/-! Two machines that differ in their program stores only, and there not below N: a STEP cannot tell
them apart (R21, R94). -/

open Sys2Proof.Claims

/-- `s` with another program store. -/
def State.withProg (s : State) (m : Memory) : State := { s with prog := m }

/-- Below N the store `m` gives the words that the store of `s` gives. -/
def State.AgreesBelowN (s : State) (m : Memory) : Prop :=
  ∀ j, j < s.n → (s.withProg m).fetchInstr j = s.fetchInstr j

@[simp] theorem withProg_outputs (s : State) (m : Memory) : (s.withProg m).outputs = s.outputs := rfl

theorem fetch_withProg (o : Operand) (s : State) (m : Memory) :
    o.fetch (s.withProg m) = o.fetch s := by
  cases o <;> rfl

theorem retire_withProg (s : State) (m : Memory) (d p : Fin 6) (res : Word) :
    (s.withProg m).retire d p res = (s.retire d p res).withProg m := by
  by_cases hdp : d = p
  · simp only [State.retire, hdp, if_true]; rfl
  · simp only [State.retire, hdp, if_false]; rfl

/-- No instruction reads or writes the program store. -/
theorem exec_withProg {i : Instr} {s t : State} (m : Memory) (h : exec i s = .next t) :
    exec i (s.withProg m) = .next (t.withProg m) := by
  rw [exec_eq_execute] at h ⊢
  rcases execute_cases i.control.alu (.ofMode i.control.amode i.opA)
      (.ofMode i.control.bmode i.opB) i.opC s with
    ⟨va, vb, d, p, ha, hb, hc, hp, e⟩ | ⟨bad, e⟩ <;> (rw [e] at h; cases h)
  · rw [← fetch_withProg _ s m] at ha hb
    rw [execute_retires ha hb hc hp, retire_withProg]
  · rw [← fetch_withProg _ s m, ← fetch_withProg _ s m] at bad
    exact execute_raises bad

/-- A STEP reads the store at most at pc, below N, so it does the same to both machines. -/
theorem step_withProg {s t : State} {m : Memory} (h : s.AgreesBelowN m) (hstep : step s = .next t) :
    step (s.withProg m) = .next (t.withProg m) := by
  rcases faulted_or_halted_or_running s with hf | halted | running
  · rw [step_of_faulted hf] at hstep
    cases hstep
    exact step_of_faulted hf
  · rw [step_eq_answerHalt halted] at hstep
    cases hstep
    exact step_eq_answerHalt halted
  · have running' : Running (s.withProg m) := running
    have same : current (s.withProg m) = current s := by
      obtain ⟨-, h0, hn⟩ := running
      exact congrArg decode (h s.pc.toInt.toNat (by omega))
    rw [step_eq_exec_current running] at hstep
    rw [step_eq_exec_current running', same]
    exact exec_withProg m hstep

/-- A STEP writes neither the store nor N. -/
theorem step_agreesBelowN {s t : State} {m : Memory} (h : s.AgreesBelowN m)
    (hstep : step s = .next t) : t.AgreesBelowN m := by
  obtain ⟨-, hn, hprog⟩ := step_frame hstep
  intro j hj
  rw [hn] at hj
  simpa only [State.fetchInstr, State.withProg, hprog] using h j hj

theorem runCommands_steps_withProg (k : Nat) {s : State} {m : Memory} (h : s.AgreesBelowN m) :
    ∃ t, runCommands (List.replicate k .step) s = .next t ∧
      runCommands (List.replicate k .step) (s.withProg m) = .next (t.withProg m) ∧
      t.AgreesBelowN m := by
  induction k generalizing s with
  | zero => exact ⟨s, rfl, rfl, h⟩
  | succ k ih =>
    obtain ⟨u, hstep, -⟩ := step_answers s
    have cmd : command .step s = .next u := hstep
    have cmd' : command .step (s.withProg m) = .next (u.withProg m) := step_withProg h hstep
    rw [List.replicate_succ, runCommands_cons_of_next _ cmd, runCommands_cons_of_next _ cmd']
    exact ih (step_agreesBelowN h hstep)

/-- The same image loaded over two stores agrees below N, its length. -/
theorem load_agreesBelowN (s₁ s₂ : State) (ip : Word) (seq : List InstrWord) :
    (s₁.load ip seq).AgreesBelowN (s₂.load ip seq).prog := fun _ hj =>
  (fetchInstr_load_of_lt s₂ ip hj).trans (fetchInstr_load_of_lt s₁ ip hj).symm

end

section

open Sys2Proof.Claims

/-- Settles O52: after INIT and the LOAD the two machines differ in their stores only, and not below
N; no number of STEPs tells them apart. -/
theorem sessionForgetsEarlierState : Obligations.SessionForgetsEarlierState := by
  intro s₁ s₂ ip seq k
  obtain ⟨t, run₁, run₂, agrees⟩ :=
    runCommands_steps_withProg k (load_agreesBelowN s₁.init s₂.init ip seq)
  exact ⟨t, _, run₁, run₂, (withProg_outputs t _).symm, rfl, rfl, fun j hj => (agrees j hj).symm⟩

end

end Sys2Proof.Machine

namespace Sys2Proof.Machine

section
/-! Well-formed programs under a legal binding (R45, R80): such a machine has no index check to
fail. -/

open Sys2Proof.Claims

/-- The register operands by the suffix rule are the operands of kind R of the decode table, and C
(R8, R35). -/
theorem mem_regOperands_iff {i : Instr} {k : Word} :
    k ∈ i.regOperands ↔
      (i.control.amode = .R ∧ k = i.opA) ∨ (i.control.bmode = .R ∧ k = i.opB) ∨ k = i.opC := by
  cases i <;>
    simp [Instr.regOperands, Instr.control, Instr.opcode, Instr.opA, Instr.opB, Instr.opC,
      decodeTable]

/-- A well-formed instruction under a legal binding passes the index check. -/
theorem not_badIndexOf_of_wellFormed {i : Instr} {s : State} (hi : i.WellFormed)
    (hip : IndexOK s.ipsel) : ¬ BadIndexOf i s := by
  have indices := wellFormed_iff.1 hi
  rintro (bad | bad | ⟨hA, bad⟩ | ⟨hB, bad⟩)
  · exact bad hip
  · exact bad (indices _ (mem_regOperands_iff.2 (.inr (.inr rfl))))
  · exact bad (indices _ (mem_regOperands_iff.2 (.inl ⟨hA, rfl⟩)))
  · exact bad (indices _ (mem_regOperands_iff.2 (.inr (.inl ⟨hB, rfl⟩))))

theorem not_badIndexOf_current_of_safe {s : State} (h : s.Safe) (hr : Running s) :
    ¬ BadIndexOf (current s) s := by
  obtain ⟨-, h0, hn⟩ := hr
  exact not_badIndexOf_of_wellFormed (h.program s.pc.toInt.toNat (by omega)) h.binding

/-- Safety speaks of the fault bit, the binding and the loaded program only. -/
theorem step_safe {s t : State} (h : s.Safe) (hstep : step s = .next t) (hf : t.faulted = false) :
    t.Safe := by
  obtain ⟨hip, hn, hprog⟩ := step_frame hstep
  refine ⟨hf, hip ▸ h.binding, fun k hk => ?_⟩
  rw [hn] at hk
  simpa only [State.fetchInstr, hprog] using h.program k hk

/-- INIT and the LOAD of an encoded well-formed program make a safe machine. -/
theorem load_encode_safe (s : State) {ip : Word} {prog : List Instr}
    (h : ProgramWellFormed ip prog) : (s.init.load ip (prog.map encode)).Safe := by
  obtain ⟨hip, -, hprog⟩ := programWellFormed_iff.1 h
  refine ⟨rfl, hip, fun k hk => ?_⟩
  rw [load_n] at hk
  rw [fetchInstr_load_of_lt _ ip hk, List.getElem_map, decode_encode]
  exact hprog _ (List.getElem_mem _)

end

section

open Sys2Proof.Claims

/-- Settles O53: of the four outcomes of a STEP, a safe machine is not faulted and its current
instruction passes the index check, which leaves HALT and CONTINUE. -/
theorem safeMachineNeverFaults : Obligations.SafeMachineNeverFaults := by
  intro s hs
  have hf := hs.notFaulted
  rcases step_outcome s with ⟨faulted, -⟩ | ⟨-, e⟩ | ⟨running, bad, -⟩ | ⟨-, -, d, p, res, e⟩
  · simp [hf] at faulted
  · exact ⟨_, e, step_safe hs e hf, .inl rfl⟩
  · exact absurd bad (not_badIndexOf_current_of_safe hs running)
  · exact ⟨_, e, step_safe hs e ((retire_faulted ..).trans hf), .inr rfl⟩

/-- Settles O54: the loaded machine is safe and shows no result yet; every STEP keeps it safe and
shows HALT or CONTINUE. -/
theorem wellFormedProgramNeverFaults : Obligations.WellFormedProgramNeverFaults := by
  intro s ip prog k h
  have keeps : ∀ u : State, u.Safe ∧ u.sres ≠ .fault →
      ∃ t, step u = .next t ∧ t.Safe ∧ t.sres ≠ .fault := by
    rintro u ⟨safe, -⟩
    obtain ⟨t, hstep, safe', hsres⟩ := safeMachineNeverFaults u safe
    exact ⟨t, hstep, safe', by rcases hsres with e | e <;> simp [e]⟩
  obtain ⟨t, run, safe, hsres⟩ := session_keeps keeps (s := s) k
    ⟨load_encode_safe s h, by simp⟩
  exact ⟨t, run, safe.notFaulted, hsres⟩

end

end Sys2Proof.Machine

namespace Sys2Proof.Machine

section
/-! An instruction line taken apart (R37, R39): its pieces at the spaces, its mnemonic, and its
numbers. -/

open Sys2Proof.Claims

/-- A text without the separator is one piece. -/
theorem splitAt_of_not_mem {sep : Char} {piece : List Char} (h : sep ∉ piece) :
    splitAt sep piece = [piece] := by
  induction piece with
  | nil => rfl
  | cons c cs ih =>
    obtain ⟨hc, hcs⟩ := List.ne_and_not_mem_of_not_mem_cons h
    simp [splitAt, hc.symm, ih hcs]

/-- A piece without the separator is cut off at the first separator. -/
theorem splitAt_append_cons {sep : Char} {piece : List Char} (h : sep ∉ piece)
    (rest : List Char) : splitAt sep (piece ++ sep :: rest) = piece :: splitAt sep rest := by
  induction piece with
  | nil => simp [splitAt]
  | cons c cs ih =>
    obtain ⟨hc, hcs⟩ := List.ne_and_not_mem_of_not_mem_cons h
    simp [splitAt, hc.symm, ih hcs]

theorem space_not_mem_mnemonic {name : List Char} (h : name ∈ mnemonics) : ' ' ∉ name :=
  have all : ∀ m ∈ mnemonics, ' ' ∉ m := by decide
  all name h

/-- The mnemonics differ, so each is found at its own opcode number (R34). -/
theorem mnemonicIndex_mnemonics {op : Fin 16} {name : List Char}
    (h : mnemonics[op.val]? = some name) : mnemonicIndex name mnemonics 0 = some op.val := by
  have all : ∀ k : Fin 16, mnemonicIndex mnemonics[k] mnemonics 0 = some k.val := by decide
  obtain ⟨_, rfl⟩ := List.getElem?_eq_some_iff.1 h
  exact all op

theorem digitValue_digitChar (d : Fin 10) : digitValue (digitChar d) = some d.val := by
  fin_cases d <;> rfl

theorem space_not_mem_numeral (ds : List (Fin 10)) : ' ' ∉ numeral ds := by
  have all : ∀ d : Fin 10, digitChar d ≠ ' ' := by decide
  simp [numeral, all]

theorem digitsFrom_numeral (ds : List (Fin 10)) (acc : Nat) :
    digitsFrom acc (numeral ds) = some (ds.foldl (fun v d => v * 10 + d.val) acc) := by
  induction ds generalizing acc with
  | nil => rfl
  | cons d ds ih =>
    simp only [numeral, List.map_cons, digitsFrom, digitValue_digitChar]
    exact ih _

/-- A numeral with at least one digit is read as its value. -/
theorem number_numeral {ds : List (Fin 10)} (h : ds ≠ []) :
    number (numeral ds) = some (digitsValue ds) := by
  cases ds with
  | nil => exact absurd rfl h
  | cons d ds => exact digitsFrom_numeral (d :: ds) 0

/-- The pieces of an instruction line are its mnemonic and its three numerals. -/
theorem splitAt_instructionLine {name : List Char} (h : ' ' ∉ name) (da db dc : List (Fin 10)) :
    splitAt ' ' (name ++ ' ' :: numeral da ++ ' ' :: numeral db ++ ' ' :: numeral dc) =
      [name, numeral da, numeral db, numeral dc] := by
  simp only [List.append_assoc, List.cons_append]
  rw [splitAt_append_cons h, splitAt_append_cons (space_not_mem_numeral da),
    splitAt_append_cons (space_not_mem_numeral db), splitAt_of_not_mem (space_not_mem_numeral dc)]

/-- Three numbers assemble exactly when each of them fits its field (R39). -/
theorem assembleNumbers_eq (op : Fin 16) (a b c : Nat) :
    assembleNumbers op a b c =
      if a < 2 ^ 31 ∧ b < 2 ^ 31 ∧ c < 2 ^ 31 then
        .ok (encode (instrOfFields op (BitVec.ofNat 32 a) (BitVec.ofNat 32 b) (BitVec.ofNat 32 c)))
      else .error .numberTooLarge := by
  by_cases ha : a < 2 ^ 31
  · by_cases hb : b < 2 ^ 31
    · by_cases hc : c < 2 ^ 31
      · simp only [assembleNumbers, operandField, ha, hb, hc, if_true, and_self]; rfl
      · simp only [assembleNumbers, operandField, ha, hb, hc, if_true, if_false, and_false]; rfl
    · simp only [assembleNumbers, operandField, ha, hb, if_true, if_false, false_and, and_false]; rfl
  · simp only [assembleNumbers, operandField, ha, if_false, false_and]; rfl

end

/-- Settles O55: the line is cut at its three spaces, the mnemonic gives the opcode number and the
numerals give the numbers; whether those fit decides. -/
theorem instructionLineAssembles : Obligations.InstructionLineAssembles := by
  intro op name da db dc hname ha hb hc
  have space : ' ' ∉ name := space_not_mem_mnemonic (List.mem_of_getElem? hname)
  have hop : Fin.ofNat 16 op.val = op := Fin.ofNat_val_eq_self op
  simp only [assembleLine, splitAt_instructionLine space, mnemonicIndex_mnemonics hname,
    number_numeral ha, number_numeral hb, number_numeral hc, hop, assembleNumbers_eq]

end Sys2Proof.Machine
